-- ==== Sys2Proof/Word.lean ====
section
/-! DEFINITION. The word types of the LS-8 CORE (00_scope.md R5, R7): bytes, and the 9-bit values that hold an address 0..256. -/

namespace Sys2Proof

/-- A register value, memory cell, operand byte or output byte: 0..255 (R7). -/
abbrev Byte := BitVec 8

/-- A program-counter value or a fault record's `info`: 9 bits (R20, R132). -/
abbrev Addr9 := BitVec 9

end Sys2Proof
end

