-- ==== Sys2Proof/Config.lean ====
section
/-! DEFINITION. What is fixed for this hardware (00_scope.md R5), and the model's choice for unwritten memory. -/

namespace Sys2Proof.Config

/-- `MEM_SIZE`: memory has cells 0..255 (R5, R36). -/
def memSize : Nat := 256

/-- `SP_RESET`: the value R7 holds after reset (R5, R18). -/
def spReset : Byte := 0xF4

/-- The program counter after reset (R5, R24). -/
def resetPc : Addr9 := 0

/-- What a memory address that no entry lists reads as.
DESIGN CHOICE (log 2), unsafe: the spec leaves the memory above the image open (`MEM_TAIL`, R47). -/
def unwrittenByte : Byte := 0

end Sys2Proof.Config
end

