-- ==== Sys2Proof/Syntax.lean ====
section
/-! DEFINITION. The instructions of the LS-8 CORE, one constructor per row of the opcode map (30_encoding.md R57).
Every operand is the whole operand byte (R56, R58): a register operand of 8..255 is a term of this syntax, not a
well-formed one, and executing it takes the fault of R71. -/

namespace Sys2Proof

/-- The 14 instructions (R57, R66). `r`, `a`, `b` are register-index bytes, `i` is an immediate byte (R58, R59). -/
inductive Instr where
  /-- Halt (R78). -/
  | hlt
  /-- Load immediate (R79). -/
  | ldi (r i : Byte)
  /-- Print register (R80). -/
  | prn (r : Byte)
  /-- Add registers (R83). -/
  | add (a b : Byte)
  /-- Subtract registers (R84). -/
  | sub (a b : Byte)
  /-- Multiply registers (R85). -/
  | mul (a b : Byte)
  /-- Push register (R92). -/
  | push (r : Byte)
  /-- Pop into register (R93). -/
  | pop (r : Byte)
  /-- Call the subroutine whose address is in a register (R94). -/
  | call (r : Byte)
  /-- Return from subroutine (R95). -/
  | ret
  /-- Compare registers (R99). -/
  | cmp (a b : Byte)
  /-- Jump to the address in a register (R100). -/
  | jmp (r : Byte)
  /-- Jump if equal (R101). -/
  | jeq (r : Byte)
  /-- Jump if not equal (R102). -/
  | jne (r : Byte)
  deriving DecidableEq, Repr

end Sys2Proof
end

