-- ==== Sys2Proof/WellFormed.lean ====
section
/-! DEFINITION. Which instruction terms are well formed: every register operand is 0..7 (10_state.md R17, 30_encoding.md R58). -/

namespace Sys2Proof

/-- The register-kind operands of an instruction, in operand order op1, op2 (30_encoding.md R56, 40_engine.md R71).
LDI's op2 is an immediate and is none. -/
def Instr.regOperands : Instr → List Byte
  | .hlt => []
  | .ldi r _ => [r]
  | .prn r => [r]
  | .add a b => [a, b]
  | .sub a b => [a, b]
  | .mul a b => [a, b]
  | .push r => [r]
  | .pop r => [r]
  | .call r => [r]
  | .ret => []
  | .cmp a b => [a, b]
  | .jmp r => [r]
  | .jeq r => [r]
  | .jne r => [r]

/-- Every register operand names a register (R17). -/
def Instr.wellFormed (i : Instr) : Bool :=
  i.regOperands.all fun b => decide (b.toNat < 8)

end Sys2Proof
end

