-- ==== Sys2Proof/Decode.lean ====
section
/-! DEFINITION. The decoder, total on any bytes and rejecting by name, and after it the encoder
(30_encoding.md R55 to R64, 40_engine.md R69, R70). -/

namespace Sys2Proof

/-- Why a byte sequence holds no whole instruction. -/
inductive DecodeError where
  /-- There is no opcode byte (R68). -/
  | noOpcode
  /-- The opcode byte is not in the map (R61, R69). -/
  | unknownOpcode (opcode : Byte)
  /-- Operand `k` (1 or 2) of a known opcode is missing (R70). -/
  | missingOperand (opcode : Byte) (k : Nat)
  deriving DecidableEq, Repr

/-- What the opcode map gives for one opcode: how many operand bytes follow and the instruction they make (R56, R69). -/
inductive Shape where
  /-- Format F0, length 1. -/
  | f0 (i : Instr)
  /-- Format F1R, length 2. -/
  | f1 (mk : Byte → Instr)
  /-- Formats F2RI and F2RR, length 3. -/
  | f2 (mk : Byte → Byte → Instr)

/-- The opcode map: whole bytes, exactly 14 of them (R57, R60, R63). -/
def opcodeMap (opcode : Byte) : Option Shape :=
  match opcode with
  | 0b00000001#8 => some (.f0 .hlt)
  | 0b10000010#8 => some (.f2 .ldi)
  | 0b01000111#8 => some (.f1 .prn)
  | 0b10100000#8 => some (.f2 .add)
  | 0b10100001#8 => some (.f2 .sub)
  | 0b10100010#8 => some (.f2 .mul)
  | 0b01000101#8 => some (.f1 .push)
  | 0b01000110#8 => some (.f1 .pop)
  | 0b01010000#8 => some (.f1 .call)
  | 0b00010001#8 => some (.f0 .ret)
  | 0b10100111#8 => some (.f2 .cmp)
  | 0b01010100#8 => some (.f1 .jmp)
  | 0b01010101#8 => some (.f1 .jeq)
  | 0b01010110#8 => some (.f1 .jne)
  | _ => none

/-- The instruction at the head of a byte sequence, with the bytes after it. An unknown opcode looks at no operand
(R62); op1 is taken before op2 (R70). -/
def decode : List Byte → Except DecodeError (Instr × List Byte)
  | [] => .error .noOpcode
  | opcode :: rest =>
    match opcodeMap opcode with
    | none => .error (.unknownOpcode opcode)
    | some (.f0 i) => .ok (i, rest)
    | some (.f1 mk) =>
      match rest with
      | [] => .error (.missingOperand opcode 1)
      | op1 :: rest => .ok (mk op1, rest)
    | some (.f2 mk) =>
      match rest with
      | [] => .error (.missingOperand opcode 1)
      | [_] => .error (.missingOperand opcode 2)
      | op1 :: op2 :: rest => .ok (mk op1 op2, rest)

/-- The opcode byte of an instruction, written from the table of R57. -/
def opcodeOf : Instr → Byte
  | .hlt => 0x01
  | .ldi _ _ => 0x82
  | .prn _ => 0x47
  | .add _ _ => 0xA0
  | .sub _ _ => 0xA1
  | .mul _ _ => 0xA2
  | .push _ => 0x45
  | .pop _ => 0x46
  | .call _ => 0x50
  | .ret => 0x11
  | .cmp _ _ => 0xA7
  | .jmp _ => 0x54
  | .jeq _ => 0x55
  | .jne _ => 0x56

/-- The operand bytes of an instruction, op1 before op2 (R56). -/
def operandsOf : Instr → List Byte
  | .hlt => []
  | .ldi r i => [r, i]
  | .prn r => [r]
  | .add a b => [a, b]
  | .sub a b => [a, b]
  | .mul a b => [a, b]
  | .push r => [r]
  | .pop r => [r]
  | .call r => [r]
  | .ret => []
  | .cmp a b => [a, b]
  | .jmp r => [r]
  | .jeq r => [r]
  | .jne r => [r]

/-- The bytes of an instruction, at rising addresses (R41, R55). -/
def encode (i : Instr) : List Byte := opcodeOf i :: operandsOf i

/-- The three bytes, first byte first, of a table word of `nbits` bits: byte `k` is bits `8k+7 .. 8k`, and every bit
above `nbits` is 0. -/
def tableBytes (nbits w : Nat) : List Byte :=
  let v := w % 2 ^ nbits
  [BitVec.ofNat 8 v, BitVec.ofNat 8 (v / 256), BitVec.ofNat 8 (v / 65536)]

/-- The instruction the decoder reads from a word numbered as spec/opcode_table.json numbers it. -/
def decodeTableWord (nbits w : Nat) : Option Instr :=
  match decode (tableBytes nbits w) with
  | .ok (i, _) => some i
  | .error _ => none

end Sys2Proof
end

