-- ==== Sys2Proof/Machine/State.lean ====
section
/-! DEFINITION. The state of the LS-8 CORE as plain data (10_state.md R13), why a step can stop, and the state after reset. -/

namespace Sys2Proof.Machine

/-- The eight registers R0..R7 (R14). -/
inductive Reg where
  | r0 | r1 | r2 | r3 | r4 | r5 | r6 | r7
  deriving DecidableEq, Repr

/-- The register file: 8 registers of 8 bits (R14). -/
structure RegFile where
  r0 : Byte
  r1 : Byte
  r2 : Byte
  r3 : Byte
  r4 : Byte
  r5 : Byte
  r6 : Byte
  r7 : Byte
  deriving DecidableEq, Repr

/-- The condition flags: three independent bits, equal, less-than, greater-than (R25). -/
structure Flags where
  E : Bool
  L : Bool
  G : Bool
  deriving DecidableEq, Repr

/-- The kinds of fatal fault (60_exceptions.md R105). -/
inductive FaultKind where
  /-- The fetched byte is not an opcode (R106). -/
  | unknownOpcode
  /-- The ALU was asked for an operation it does not have (R107); no program reaches it. -/
  | unsupportedALUOperation
  /-- A memory address outside 0..255 (R108). -/
  | outOfBoundsMemory
  /-- A register index outside 0..7 (R108). -/
  | outOfBoundsRegister
  deriving DecidableEq, Repr

/-- What a fault records (R32). -/
structure FaultRecord where
  kind : FaultKind
  /-- The program counter at the faulting step. -/
  fpc : Addr9
  /-- The fetched opcode byte, or none when the opcode fetch itself faulted. -/
  opcode : Option Byte
  /-- The offending memory address, register index or opcode byte. -/
  info : Addr9
  deriving DecidableEq, Repr

/-- The run status (R29). -/
inductive Status where
  | running
  | halted
  | faulted (record : FaultRecord)
  deriving DecidableEq, Repr

/-- Memory: (address, byte) pairs in the canonical form `Memory.wf`; an unlisted address reads as `Config.unwrittenByte`. -/
structure Memory where
  cells : List Host.Cell
  deriving DecidableEq, Repr

/-- The canonical form: addresses strictly rising and below 256 (R36), no entry equal to what an unlisted address reads as. -/
abbrev Memory.wf (m : Memory) : Prop :=
  m.cells.Pairwise (fun c d => c.1 < d.1) ∧
    ∀ c ∈ m.cells, c.1 < Config.memSize ∧ c.2 ≠ Config.unwrittenByte

/-- The whole state (R13), and the output emitted so far (R33). -/
structure State where
  /-- The 256 memory cells (R36). -/
  mem : Memory
  /-- R0..R7 (R14); R7 is the stack pointer (R15). -/
  regs : RegFile
  /-- The address of the next opcode, 0..256 in 9 bits (R20). -/
  pc : Addr9
  /-- E, L, G (R25). -/
  flags : Flags
  /-- RUNNING, HALTED or FAULTED (R29). -/
  status : Status
  /-- The bytes PRN emitted, oldest first (R33). DESIGN CHOICE (log 1): the spec has them as events, not as state. -/
  out : List Byte
  deriving DecidableEq, Repr

/-- Why `step` has no next state. No meaning of an instruction answers one: a fatal error of the spec is a NEXT state
whose status is FAULTED (R110), log 3. -/
inductive Fault where
  /-- Raised by `step` alone, when the status is HALTED: no step exists there (R67). Safe: the hardware does not step either. -/
  | halted
  /-- Raised by `step` alone, when the status is FAULTED: no step exists there (R67, R113), and the record is held (R110).
  Safe: the hardware does not step either. -/
  | faulted (record : FaultRecord)
  deriving DecidableEq, Repr

/-- Why an instruction has no meaning in the model. -/
inductive Refusal where
  /-- Raised by a refused arm of `exec` for an instruction without a meaning yet; no arm is refused. Safe. -/
  | notModelled (mnemonic : String)
  deriving DecidableEq, Repr

/-- The registers after reset: R0..R6 are 0, R7 is 0xF4 (R18). -/
def RegFile.reset : RegFile :=
  { r0 := 0, r1 := 0, r2 := 0, r3 := 0, r4 := 0, r5 := 0, r6 := 0, r7 := Config.spReset }

/-- The flags after reset: all 0 (R28). -/
def Flags.reset : Flags := { E := false, L := false, G := false }

/-- The machine right after reset, with no image loaded (R123): so the image is empty and the status is HALTED (R31), log 4. -/
def State.reset : State :=
  { mem := { cells := [] }
    regs := RegFile.reset
    pc := Config.resetPc
    flags := Flags.reset
    status := .halted
    out := [] }

end Sys2Proof.Machine
end

