-- ==== Sys2Proof/Machine/Ops.lean ====
section
/-! DEFINITION. The named operations every meaning is built from: narrowing, registers, memory, the stack, the program
counter, output, taking a fault, and fetching an instruction. -/

namespace Sys2Proof.Machine

/-- `wrap8(v) = v mod 256` on mathematical integers (00_scope.md R7). -/
def wrap8 (v : Int) : Byte := BitVec.ofInt 8 v

/-- A byte as a 9-bit value, unchanged (R20, R132). -/
def addr9 (b : Byte) : Addr9 := b.setWidth 9

/-! ### Registers -/

/-- The stack pointer is R7 (10_state.md R15). -/
def Reg.sp : Reg := .r7

/-- `x[r]` of a register file (R8). -/
def RegFile.get (f : RegFile) : Reg → Byte
  | .r0 => f.r0
  | .r1 => f.r1
  | .r2 => f.r2
  | .r3 => f.r3
  | .r4 => f.r4
  | .r5 => f.r5
  | .r6 => f.r6
  | .r7 => f.r7

/-- The register file with `x[r] <- v` (R8). -/
def RegFile.set (f : RegFile) (r : Reg) (v : Byte) : RegFile :=
  match r with
  | .r0 => { f with r0 := v }
  | .r1 => { f with r1 := v }
  | .r2 => { f with r2 := v }
  | .r3 => { f with r3 := v }
  | .r4 => { f with r4 := v }
  | .r5 => { f with r5 := v }
  | .r6 => { f with r6 := v }
  | .r7 => { f with r7 := v }

/-- `x[r]` (R8). -/
def State.readReg (s : State) (r : Reg) : Byte := s.regs.get r

/-- `x[r] <- v` (R8). -/
def State.writeReg (s : State) (r : Reg) (v : Byte) : State := { s with regs := s.regs.set r v }

/-! ### Memory -/

/-- The byte the entry of address `a` lists, or what an unlisted address reads as. -/
def cellsGet : List Host.Cell → Nat → Byte
  | [], _ => Config.unwrittenByte
  | c :: cs, a => if c.1 = a then c.2 else cellsGet cs a

/-- The entries with one more, before the first entry of a higher address. -/
def cellsInsert : List Host.Cell → Nat → Byte → List Host.Cell
  | [], a, v => [(a, v)]
  | c :: cs, a, v => if a < c.1 then (a, v) :: c :: cs else c :: cellsInsert cs a v

/-- The byte at address `a`, for an address in range. -/
def Memory.get (m : Memory) (a : Nat) : Byte := cellsGet m.cells a

/-- Memory with byte `v` at address `a`, for an address in range; the canonical form is kept. -/
def Memory.set (m : Memory) (a : Nat) (v : Byte) : Memory :=
  let others := m.cells.filter fun c => c.1 ≠ a
  { cells := if v = Config.unwrittenByte then others else cellsInsert others a v }

/-- `MemRead(addr, 1)`: none where it raises OutOfBoundsAccess(Memory) (20_memory.md R37). -/
def Memory.read? (m : Memory) (a : Nat) : Option Byte :=
  if a < Config.memSize then some (m.get a) else none

/-- `MemWrite(addr, 1, v)`: none where it raises OutOfBoundsAccess(Memory) (R38). -/
def Memory.write? (m : Memory) (a : Nat) (v : Byte) : Option Memory :=
  if a < Config.memSize then some (m.set a v) else none

/-- `MemRead` at an address held in a byte, which is always in range (R54). -/
def State.load (s : State) (a : Byte) : Byte := s.mem.get a.toNat

/-- `MemWrite` at an address held in a byte, which is always in range (R54). -/
def State.store (s : State) (a v : Byte) : State := { s with mem := s.mem.set a.toNat v }

/-! ### Program counter, output, status -/

/-- Fall through past an instruction of `n` bytes; the program counter does not wrap (R21, R23, R74). -/
def State.advance (s : State) (n : Nat) : State := { s with pc := s.pc + BitVec.ofNat 9 n }

/-- Set the program counter to a target, which is a byte (R21, R74). -/
def State.jump (s : State) (target : Byte) : State := { s with pc := addr9 target }

/-- `emit(v)`: append a byte to the output (R8, R33). -/
def State.emit (s : State) (v : Byte) : State := { s with out := s.out ++ [v] }

/-- `status <- HALTED` (R8, R78). -/
def State.halt (s : State) : State := { s with status := .halted }

/-! ### The stack -/

/-- The address a push writes to: the stack pointer after its decrement, `wrap8(SP - 1)` (R45, R89). -/
def State.pushAddr (s : State) : Byte := wrap8 ((s.readReg .sp).toNat - 1)

/-- The stack pointer after a pop: `wrap8(SP + 1)` (R45, R90). -/
def State.popSp (s : State) : Byte := wrap8 ((s.readReg .sp).toNat + 1)

/-- Decrement SP, then write at the new SP the byte that `v` gives on the state after the decrement (R89, R92). -/
def State.pushWith (s : State) (v : State → Byte) : State :=
  let s' := s.writeReg .sp s.pushAddr
  s'.store (s'.readReg .sp) (v s')

/-- `push_value(v)` (43_stack.md R89). -/
def State.pushValue (s : State) (v : Byte) : State := s.pushWith fun _ => v

/-- `pop_value()`: the byte at SP, and the state with SP incremented (43_stack.md R90). -/
def State.popValue (s : State) : Byte × State :=
  (s.load (s.readReg .sp), s.writeReg .sp s.popSp)

/-! ### Taking a fault -/

/-- `raise`: the status becomes FAULTED(record) and nothing else changes (60_exceptions.md R110, 40_engine.md R73).
No instruction returns from it (R113). -/
def State.raise (s : State) (kind : FaultKind) (opcode : Option Byte) (info : Addr9) : State :=
  { s with status := .faulted { kind := kind, fpc := s.pc, opcode := opcode, info := info } }

/-! ### Fetch and decode -/

/-- The bytes at pc, pc+1 and pc+2 that exist (R68, R70). Reading a byte has no side effect (R37), so reading a byte the
instruction does not use changes nothing, log 14. -/
def State.fetchBytes (s : State) : List Byte :=
  [s.pc.toNat, s.pc.toNat + 1, s.pc.toNat + 2].filterMap s.mem.read?

/-- The instruction at the program counter, or why there is none (R68 to R70). -/
def State.fetch (s : State) : Except DecodeError Instr :=
  match decode s.fetchBytes with
  | .ok (i, _) => .ok i
  | .error e => .error e

/-- The fault a failed fetch or decode takes (R68, R69, R70, R106, R108). -/
def State.raiseFetch (s : State) : DecodeError → State
  | .noOpcode => s.raise .outOfBoundsMemory none s.pc
  | .unknownOpcode opcode => s.raise .unknownOpcode (some opcode) (addr9 opcode)
  | .missingOperand opcode k => s.raise .outOfBoundsMemory (some opcode) (s.pc + BitVec.ofNat 9 k)

/-- What `step` answers where no step exists: HALTED and FAULTED (40_engine.md R67); none when RUNNING. -/
def State.stopped (s : State) : Option Fault :=
  match s.status with
  | .running => none
  | .halted => some .halted
  | .faulted r => some (.faulted r)

/-! ### Placing an instruction where it is fetched -/

/-- Memory with the bytes at rising addresses from `a`, those past the last cell left out. -/
def Memory.place (m : Memory) (a : Nat) : List Byte → Memory
  | [] => m
  | b :: bs => Memory.place ((m.write? a b).getD m) (a + 1) bs

/-- The state with the bytes stored at the program counter and the engine RUNNING, as after the load of an image that
is not empty (R31, R126), log 4 and log 9. -/
def State.placeAtPc (s : State) (bytes : List Byte) : State :=
  { s with mem := s.mem.place s.pc.toNat bytes, status := .running }

end Sys2Proof.Machine
end

