-- ==== Sys2Proof/Machine/Operands.lean ====
section
/-! DEFINITION. The operand forms: a register operand is checked and turned into a register, in operand order
(40_engine.md R71). An immediate is the operand byte itself (R59) and needs no operation. -/

namespace Sys2Proof.Machine

/-- The register a register-index byte names: 0..7 name R0..R7, no other byte names one (10_state.md R17, 30_encoding.md R58). -/
def Reg.ofByte (b : Byte) : Option Reg :=
  match b.toNat with
  | 0 => some .r0
  | 1 => some .r1
  | 2 => some .r2
  | 3 => some .r3
  | 4 => some .r4
  | 5 => some .r5
  | 6 => some .r6
  | 7 => some .r7
  | _ => none

/-- The index byte of a register (R58). -/
def Reg.toByte : Reg → Byte
  | .r0 => 0
  | .r1 => 1
  | .r2 => 2
  | .r3 => 3
  | .r4 => 4
  | .r5 => 5
  | .r6 => 6
  | .r7 => 7

/-- Check one register operand of an instruction with the given opcode: go on with its register, or take
OutOfBoundsAccess(Register, operand) (R71, R108). -/
def withReg (opcode operand : Byte) (s : State) (go : Reg → Host.Outcome State Fault Refusal) :
    Host.Outcome State Fault Refusal :=
  match Reg.ofByte operand with
  | some r => go r
  | none => .next (s.raise .outOfBoundsRegister (some opcode) (addr9 operand))

/-- Check two register operands, op1 then op2: the first failure is the one taken (R71, R112). -/
def withRegs (opcode op1 op2 : Byte) (s : State) (go : Reg → Reg → Host.Outcome State Fault Refusal) :
    Host.Outcome State Fault Refusal :=
  withReg opcode op1 s fun a => withReg opcode op2 s fun b => go a b

end Sys2Proof.Machine
end

