-- ==== Sys2Proof/Machine/Alu.lean ====
section
/-! DEFINITION. The ALU and ADD, SUB, MUL (42_alu.md). -/

namespace Sys2Proof.Machine

/-- What the ALU can be asked for: its three operations, or anything else (R82, R86). No instruction asks for `other`, log 12. -/
inductive AluRequest where
  | add
  | sub
  | mul
  | other
  deriving DecidableEq, Repr

/-- `alu(op, u, v)`: the exact integer result brought to 8 bits (R82, R88); none where the request is unsupported (R86). -/
def alu (op : AluRequest) (u v : Byte) : Option Byte :=
  match op with
  | .add => some (wrap8 ((u.toNat : Int) + (v.toNat : Int)))
  | .sub => some (wrap8 ((u.toNat : Int) - (v.toNat : Int)))
  | .mul => some (wrap8 ((u.toNat : Int) * (v.toNat : Int)))
  | .other => none

/-- `x[a] <- alu(op, x[a], x[b]); pc <- pc + 3`, writing no flag (R82, R87); an unsupported request takes
UnsupportedALUOperation with the opcode byte as info (R86, R107). -/
def execAlu (op : AluRequest) (opcode a b : Byte) (s : State) : Host.Outcome State Fault Refusal :=
  withRegs opcode a b s fun a b =>
    match alu op (s.readReg a) (s.readReg b) with
    | some v => .next ((s.writeReg a v).advance 3)
    | none => .next (s.raise .unsupportedALUOperation (some opcode) (addr9 opcode))

/-- ADD a, b (R83). -/
def execAdd (a b : Byte) (s : State) : Host.Outcome State Fault Refusal :=
  execAlu .add (opcodeOf (.add a b)) a b s

/-- SUB a, b (R84). -/
def execSub (a b : Byte) (s : State) : Host.Outcome State Fault Refusal :=
  execAlu .sub (opcodeOf (.sub a b)) a b s

/-- MUL a, b (R85). -/
def execMul (a b : Byte) (s : State) : Host.Outcome State Fault Refusal :=
  execAlu .mul (opcodeOf (.mul a b)) a b s

end Sys2Proof.Machine
end

