-- ==== Sys2Proof/Machine/CallReturn.lean ====
section
/-! DEFINITION. CALL and RET (44_call_return.md). -/

namespace Sys2Proof.Machine

/-- CALL r (R94): a return address `pc + 2` above 255 takes OutOfBoundsAccess(Memory, pc + 2) before any write; otherwise it
is pushed, and the program counter becomes `x[r]` read after the push. -/
def execCall (r : Byte) (s : State) : Host.Outcome State Fault Refusal :=
  withReg (opcodeOf (.call r)) r s fun reg =>
    let ret := s.pc.toNat + 2
    if 255 < ret then
      .next (s.raise .outOfBoundsMemory (some (opcodeOf (.call r))) (BitVec.ofNat 9 ret))
    else
      let s' := s.pushValue (BitVec.ofNat 8 ret)
      .next (s'.jump (s'.readReg reg))

/-- RET (R95): `pc <- pop_value()`. -/
def execRet (s : State) : Host.Outcome State Fault Refusal :=
  .next (s.popValue.2.jump s.popValue.1)

end Sys2Proof.Machine
end

