-- ==== Sys2Proof/Machine/Flags.lean ====
section
/-! DEFINITION. The flag computation of the comparator (45_compare_branch.md R99) and the 3-bit layout of the flags (10_state.md R28). -/

namespace Sys2Proof.Machine

/-- The flags CMP sets for two unsigned bytes: exactly one of the three is 1 (R99). -/
def compareFlags (u v : Byte) : Flags :=
  { E := decide (u.toNat = v.toNat)
    L := decide (u.toNat < v.toNat)
    G := decide (v.toNat < u.toNat) }

/-- `FL <- f`: all three bits are overwritten (R26). -/
def State.writeFlags (s : State) (f : Flags) : State := { s with flags := f }

/-- The flags as one 3-bit value: FL[2] = L, FL[1] = G, FL[0] = E (R28). No instruction reads it. -/
def Flags.bits (f : Flags) : BitVec 3 :=
  BitVec.ofBool f.L ++ BitVec.ofBool f.G ++ BitVec.ofBool f.E

end Sys2Proof.Machine
end

