-- ==== Sys2Proof/Machine/CompareBranch.lean ====
section
/-! DEFINITION. CMP, JMP, JEQ and JNE (45_compare_branch.md). -/

namespace Sys2Proof.Machine

/-- CMP a, b (R99): all three flags from the unsigned comparison of `x[a]` and `x[b]`; `pc <- pc + 3`. -/
def execCmp (a b : Byte) (s : State) : Host.Outcome State Fault Refusal :=
  withRegs (opcodeOf (.cmp a b)) a b s fun a b =>
    .next ((s.writeFlags (compareFlags (s.readReg a) (s.readReg b))).advance 3)

/-- JMP r (R100): `pc <- x[r]`. -/
def execJmp (r : Byte) (s : State) : Host.Outcome State Fault Refusal :=
  withReg (opcodeOf (.jmp r)) r s fun r => .next (s.jump (s.readReg r))

/-- `pc <- x[r]` if the condition holds, else `pc <- pc + 2` (R101, R102). -/
def State.jumpIf (s : State) (taken : Bool) (r : Reg) : State :=
  if taken then s.jump (s.readReg r) else s.advance 2

/-- JEQ r (R101): taken when E is 1; the operand is checked whether or not it is taken. -/
def execJeq (r : Byte) (s : State) : Host.Outcome State Fault Refusal :=
  withReg (opcodeOf (.jeq r)) r s fun r => .next (s.jumpIf s.flags.E r)

/-- JNE r (R102): taken when E is 0; the operand is checked whether or not it is taken. -/
def execJne (r : Byte) (s : State) : Host.Outcome State Fault Refusal :=
  withReg (opcodeOf (.jne r)) r s fun r => .next (s.jumpIf (!s.flags.E) r)

end Sys2Proof.Machine
end

