-- ==== Sys2Proof/Machine/HaltLoadOutput.lean ====
section
/-! DEFINITION. HLT, LDI and PRN (41_halt_load_output.md). -/

namespace Sys2Proof.Machine

/-- HLT (R78): the status becomes HALTED and the program counter keeps the address of the HLT byte. -/
def execHlt (s : State) : Host.Outcome State Fault Refusal :=
  .next s.halt

/-- LDI r, i (R79): `x[r] <- i; pc <- pc + 3`. -/
def execLdi (r i : Byte) (s : State) : Host.Outcome State Fault Refusal :=
  withReg (opcodeOf (.ldi r i)) r s fun r => .next ((s.writeReg r i).advance 3)

/-- PRN r (R80): `emit(x[r]); pc <- pc + 2`. -/
def execPrn (r : Byte) (s : State) : Host.Outcome State Fault Refusal :=
  withReg (opcodeOf (.prn r)) r s fun r => .next ((s.emit (s.readReg r)).advance 2)

end Sys2Proof.Machine
end

