-- ==== Sys2Proof/Machine/Stack.lean ====
section
/-! DEFINITION. PUSH and POP (43_stack.md). -/

namespace Sys2Proof.Machine

/-- PUSH r (R92): SP is decremented, `x[r]` is read after that and written at the new SP; `pc <- pc + 2`. -/
def execPush (r : Byte) (s : State) : Host.Outcome State Fault Refusal :=
  withReg (opcodeOf (.push r)) r s fun r => .next ((s.pushWith fun s' => s'.readReg r).advance 2)

/-- POP r (R93): `x[r]` gets the byte at SP, then SP, read after that write, is incremented; `pc <- pc + 2`. -/
def execPop (r : Byte) (s : State) : Host.Outcome State Fault Refusal :=
  withReg (opcodeOf (.pop r)) r s fun r =>
    let s' := s.writeReg r (s.load (s.readReg .sp))
    .next ((s'.writeReg .sp s'.popSp).advance 2)

end Sys2Proof.Machine
end

