-- ==== Sys2Proof/Machine/Step.lean ====
section
/-! DEFINITION. One step of the machine: one instruction (40_engine.md R72). -/

namespace Sys2Proof.Machine

/-- One step (R72): none exists unless RUNNING (R67); a failed fetch or decode takes its fault (R68 to R70); otherwise the
decoded instruction is executed. -/
def step (s : State) : Host.Outcome State Fault Refusal :=
  match s.stopped with
  | some why => .fault why
  | none =>
    match s.fetch with
    | .error e => .next (s.raiseFetch e)
    | .ok i => exec i s

/-- The state with a table word stored at the program counter and the engine RUNNING, so that the next step runs it. -/
def State.withFetchWord (s : State) (nbits w : Nat) : State :=
  s.placeAtPc (tableBytes nbits w)

end Sys2Proof.Machine
end

