-- ==== Sys2Proof/Machine/HostInterface.lean ====
section
/-! DEFINITION. What the host can do to the machine and see of it: reset, load, boot, ports (70_reset_and_hazards.md). -/

namespace Sys2Proof.Machine

/-! ### Reset and load -/

/-- The state after reset: registers, pc, flags, status and fault record take their reset values and memory is kept
(R123, R124); `progEmpty` decides between HALTED and RUNNING (R31, R132). The output of a new run is empty (R123), log 10. -/
def hostReset (progEmpty : Bool) (s : State) : State :=
  { mem := s.mem
    regs := RegFile.reset
    pc := Config.resetPc
    flags := Flags.reset
    status := if progEmpty then .halted else .running
    out := [] }

/-- One load write, `ld_addr` and `ld_data` with `ld_we = 1` while `rst = 1` (R132). -/
def hostWrite (a v : Byte) (s : State) : State := s.store a v

/-- The bytes the host's loader hands over: it refuses more than 256 values, or a value above 255 (R131). -/
def loaderAccepts (values : List Nat) : Option (List Byte) :=
  if values.length ≤ Config.memSize ∧ ∀ v ∈ values, v ≤ 255 then some (values.map (BitVec.ofNat 8)) else none

/-- Byte `k` of the image is written to `mem[k]`, in order (R129); none where the loader refuses the image (R131). -/
def loadImage (values : List Nat) (s : State) : Option State :=
  (loaderAccepts values).map fun image => { s with mem := s.mem.place 0 image }

/-- The boot order: hold reset, load the image, release reset with `prog_empty = (n = 0)` (R126). The memory that stood
before and that the image does not cover is `MEM_TAIL` (R47, R124). None where the loader refuses the image: the CORE is
not started, no fault is raised, and the model has no run (R131, decision D7). -/
def boot (values : List Nat) (s : State) : Option State :=
  (loadImage values s).map (hostReset values.isEmpty)

/-- The input ports (R132). -/
structure HostInputs where
  rst : Bool
  ldWe : Bool
  ldAddr : Byte
  ldData : Byte
  progEmpty : Bool
  deriving DecidableEq, Repr

/-- One move of the machine under its input ports: with `rst = 1` the step in flight is abandoned and the state is the reset
state, with the load write if one is presented (R125, R132); with `rst = 0` the load port is not honoured and the
machine steps, log 7. -/
def hostTick (inp : HostInputs) (s : State) : Host.Outcome State Fault Refusal :=
  if inp.rst then
    .next (hostReset inp.progEmpty (if inp.ldWe then hostWrite inp.ldAddr inp.ldData s else s))
  else step s

/-! ### Ports out -/

/-- The numeric fault code (60_exceptions.md R105). -/
def FaultKind.code : FaultKind → BitVec 3
  | .unknownOpcode => 1
  | .unsupportedALUOperation => 2
  | .outOfBoundsMemory => 3
  | .outOfBoundsRegister => 4

/-- The `fault_pc`, `fault_opcode`, `fault_opcode_valid` and `fault_info` ports (R132). -/
structure FaultPorts where
  faultPc : Addr9
  faultOpcode : Byte
  faultOpcodeValid : Bool
  faultInfo : Addr9
  deriving DecidableEq, Repr

/-- The status ports (R132). `record` is none where there is no fault record: the spec gives those ports no value there, log 8. -/
structure StatusPorts where
  halted : Bool
  faulted : Bool
  faultCode : BitVec 3
  record : Option FaultPorts
  flags : BitVec 3
  deriving DecidableEq, Repr

/-- The ports that show a fault record: `fault_opcode` is 0 when the opcode fetch itself faulted (R132). -/
def FaultRecord.ports (r : FaultRecord) : FaultPorts :=
  { faultPc := r.fpc
    faultOpcode := r.opcode.getD 0
    faultOpcodeValid := r.opcode.isSome
    faultInfo := r.info }

/-- What the status ports show (R132, R134). -/
def State.statusPorts (s : State) : StatusPorts :=
  match s.status with
  | .running => { halted := false, faulted := false, faultCode := 0, record := none, flags := s.flags.bits }
  | .halted => { halted := true, faulted := false, faultCode := 0, record := none, flags := s.flags.bits }
  | .faulted r =>
    { halted := false, faulted := true, faultCode := r.kind.code, record := some r.ports, flags := s.flags.bits }

/-- The byte a step from `before` to `after` pulses on `out_data` with `out_valid = 1`; none where `out_valid` stays 0 (R134). -/
def outPulse (before after : State) : Option Byte := (after.out.drop before.out.length).head?

end Sys2Proof.Machine
end

