-- ==== Sys2Proof/Safety.lean ====
section
/-! DEFINITION. The terms claims are made in: what a legal state is, what a step may leave unchanged, which fault comes first,
and which registers an instruction reads and writes. Written from the spec's rules, not from the meanings. -/

namespace Sys2Proof.Machine

/-! ### What stays unchanged -/

/-- Every register but those listed reads as before. -/
def KeepsRegsBut (s t : State) (changed : List Reg) : Prop := ∀ r, r ∉ changed → t.readReg r = s.readReg r

/-- Every byte of memory reads as before. -/
def KeepsMemory (s t : State) : Prop := ∀ a : Nat, t.mem.get a = s.mem.get a

/-- Every byte of memory but the one at `a` reads as before. -/
def KeepsMemoryBut (s t : State) (a : Nat) : Prop := ∀ x : Nat, x ≠ a → t.mem.get x = s.mem.get x

/-- The two states agree on everything but register `q`. -/
def AgreeBut (q : Reg) (t u : State) : Prop :=
  KeepsRegsBut t u [q] ∧ KeepsMemory t u ∧ u.pc = t.pc ∧ u.flags = t.flags ∧ u.status = t.status ∧ u.out = t.out

/-- The state with the status FAULTED(record) and everything else as it was (60_exceptions.md R110, R111). -/
def State.asFaulted (s : State) (kind : FaultKind) (opcode : Option Byte) (info : Addr9) : State :=
  { s with status := .faulted { kind := kind, fpc := s.pc, opcode := opcode, info := info } }

/-- The bytes stand in memory at the program counter, all of them at addresses that exist. -/
def State.HoldsAtPc (s : State) (bytes : List Byte) : Prop :=
  s.pc.toNat + bytes.length ≤ 256 ∧ ∀ k (h : k < bytes.length), s.mem.get (s.pc.toNat + k) = bytes[k]

/-! ### The opcode map as the claims use it -/

/-- One row for each opcode: the byte, how many operand bytes it has, how many of them are registers (30_encoding.md R56, R57). -/
def opcodeRows : List (Byte × Nat × Nat) :=
  [(0x01, 0, 0), (0x82, 2, 1), (0x47, 1, 1), (0xA0, 2, 2), (0xA1, 2, 2), (0xA2, 2, 2), (0x45, 1, 1),
   (0x46, 1, 1), (0x50, 1, 1), (0x11, 0, 0), (0xA7, 2, 2), (0x54, 1, 1), (0x55, 1, 1), (0x56, 1, 1)]

/-- The 14 opcode bytes (R57). -/
def opcodeBytes : List Byte := opcodeRows.map fun row => row.1

/-! ### The order of faults -/

/-- The first fault whose condition holds, in the order of 60_exceptions.md R112, for a RUNNING state. -/
def firstFault (s : State) : Option FaultRecord :=
  let pc := s.pc.toNat
  let opcode := s.mem.get pc
  let op1 := s.mem.get (pc + 1)
  let op2 := s.mem.get (pc + 2)
  if 255 < pc then some ⟨.outOfBoundsMemory, s.pc, none, s.pc⟩
  else
    match opcodeRows.find? fun row => row.1 == opcode with
    | none => some ⟨.unknownOpcode, s.pc, some opcode, opcode.setWidth 9⟩
    | some (_, operands, registers) =>
      if 1 ≤ operands ∧ 255 < pc + 1 then some ⟨.outOfBoundsMemory, s.pc, some opcode, 256⟩
      else if 2 ≤ operands ∧ 255 < pc + 2 then some ⟨.outOfBoundsMemory, s.pc, some opcode, 256⟩
      else if 1 ≤ registers ∧ 7 < op1.toNat then some ⟨.outOfBoundsRegister, s.pc, some opcode, op1.setWidth 9⟩
      else if 2 ≤ registers ∧ 7 < op2.toNat then some ⟨.outOfBoundsRegister, s.pc, some opcode, op2.setWidth 9⟩
      else if opcode = 0x50 ∧ 255 < pc + 2 then some ⟨.outOfBoundsMemory, s.pc, some opcode, 256⟩
      else none

/-! ### Legal states -/

/-- The flags are all clear, as before the first CMP, or exactly one of them is 1 (10_state.md R26, R28). -/
def Flags.legal (f : Flags) : Prop :=
  f = ⟨false, false, false⟩ ∨ f = ⟨true, false, false⟩ ∨ f = ⟨false, true, false⟩ ∨ f = ⟨false, false, true⟩

/-- What a fault record may hold (10_state.md R32, 60_exceptions.md R105 to R108): a memory fault always records address 256,
a register fault an index 8..255, an unknown opcode the byte, and no program reaches UnsupportedALUOperation. -/
def FaultRecord.legal (r : FaultRecord) : Prop :=
  match r.kind with
  | .unknownOpcode => r.fpc.toNat ≤ 255 ∧ ∃ b, b ∉ opcodeBytes ∧ r.opcode = some b ∧ r.info = b.setWidth 9
  | .unsupportedALUOperation => False
  | .outOfBoundsMemory =>
    r.info = 256 ∧ ((r.fpc = 256 ∧ r.opcode = none) ∨
      (254 ≤ r.fpc.toNat ∧ r.fpc.toNat ≤ 255 ∧ ∃ b ∈ opcodeBytes, r.opcode = some b))
  | .outOfBoundsRegister =>
    8 ≤ r.info.toNat ∧ r.info.toNat ≤ 255 ∧ r.fpc.toNat ≤ 254 ∧ ∃ b ∈ opcodeBytes, r.opcode = some b

/-- The invariant of the machine: the program counter is 0..256 (R20), memory is in its canonical form, the flags are legal,
and a fault record is legal and holds the program counter it was taken at (R32, R73). -/
def State.Inv (s : State) : Prop :=
  s.pc.toNat ≤ 256 ∧ s.mem.wf ∧ s.flags.legal ∧
    ∀ r, s.status = .faulted r → r.legal ∧ r.fpc = s.pc

/-- `k` steps in a row (40_engine.md R75); no answer of a next state where a step on the way has none. -/
def runSteps : Nat → State → Host.Outcome State Fault Refusal
  | 0, s => .next s
  | k + 1, s =>
    match step s with
    | .next t => runSteps k t
    | .fault why => .fault why
    | .refused why => .refused why

/-! ### Which registers an instruction reads and writes -/

/-- The register a byte names, as a list of none or one. -/
def regList (b : Byte) : List Reg := (Reg.ofByte b).toList

/-- The registers an instruction writes (10_state.md R16). -/
def writesOf : Instr → List Reg
  | .hlt => []
  | .ldi r _ => regList r
  | .prn _ => []
  | .add a _ => regList a
  | .sub a _ => regList a
  | .mul a _ => regList a
  | .push _ => [.sp]
  | .pop r => regList r ++ [.sp]
  | .call _ => [.sp]
  | .ret => [.sp]
  | .cmp _ _ => []
  | .jmp _ => []
  | .jeq _ => []
  | .jne _ => []

/-- The registers an instruction reads, with the equal flag `e` (R16). -/
def readsOf (e : Bool) : Instr → List Reg
  | .hlt => []
  | .ldi _ _ => []
  | .prn r => regList r
  | .add a b => regList a ++ regList b
  | .sub a b => regList a ++ regList b
  | .mul a b => regList a ++ regList b
  | .push r => .sp :: regList r
  | .pop _ => [.sp]
  | .call r => .sp :: regList r
  | .ret => [.sp]
  | .cmp a b => regList a ++ regList b
  | .jmp r => regList r
  | .jeq r => if e then regList r else []
  | .jne r => if e then [] else regList r

end Sys2Proof.Machine
end

