-- ==== Sys2Proof/Certificates/Slice0/Obligations.lean ====
section
/-! DEFINITION. The statements for the provers. Where the spec marks a clause as its own decision (D<n> of
92_eei_decisions.md) the docstring says so: the clause is the spec's choice, not its source's, and the statement is 'derived'. -/

open Sys2Proof Sys2Proof.Machine

/-! ### Encoding -/

/-- A byte sequence decodes to an instruction, leaving some bytes, exactly when it is that instruction's encoding followed by
those bytes (30_encoding.md R55, R56, R57, R60): no bit of an operand is dropped and each word has one meaning. -/
def Obligations.DecodeInvertsEncodeBothWays : Prop :=
  ∀ (bytes : List Byte) (i : Instr) (rest : List Byte), decode bytes = .ok (i, rest) ↔ bytes = encode i ++ rest

/-- Words written out from R57 and 95_test_vectors.md decode to the instructions they stand for. -/
def Obligations.SpecWordsDecode : Prop :=
  decode [0b00000001, 0xFF] = .ok (.hlt, [0xFF]) ∧
  decode [0b10000010, 0, 8] = .ok (.ldi 0 8, []) ∧
  decode [0b01000111, 0] = .ok (.prn 0, []) ∧
  decode [0b10100010, 0, 1] = .ok (.mul 0 1, []) ∧
  decode [0b01000101, 7] = .ok (.push 7, []) ∧
  decode [0b01010000, 1] = .ok (.call 1, []) ∧
  decode [0b10100111, 3, 3] = .ok (.cmp 3 3, []) ∧
  decode [0b01010110, 3] = .ok (.jne 3, []) ∧
  decode [0b10100011, 0, 0] = .error (.unknownOpcode 0xA3)

/-- The index bytes 0..7 name R0..R7, no other byte names a register, so high bits are not dropped (R17, R58).
The fault such a byte takes is `RegisterOperandOutOfRangeFaults`. -/
def Obligations.IndexBytesNameRegisters : Prop :=
  Reg.ofByte 0 = some .r0 ∧ Reg.ofByte 1 = some .r1 ∧ Reg.ofByte 2 = some .r2 ∧ Reg.ofByte 3 = some .r3 ∧
  Reg.ofByte 4 = some .r4 ∧ Reg.ofByte 5 = some .r5 ∧ Reg.ofByte 6 = some .r6 ∧ Reg.ofByte 7 = some .r7 ∧
  (∀ r : Reg, Reg.ofByte r.toByte = some r) ∧ ∀ b : Byte, 7 < b.toNat → Reg.ofByte b = none

/-- Bits 7:6 of an opcode are its number of operand bytes, bit 5 is 1 exactly for ADD, SUB, MUL and CMP, bit 4 exactly for
CALL, RET, JMP, JEQ and JNE (R63, which the spec marks as derived). -/
def Obligations.OpcodeBitsCountOperands : Prop :=
  ∀ i : Instr,
    (opcodeOf i).toNat / 64 = (operandsOf i).length ∧
    ((opcodeOf i).getLsbD 5 = true ↔ ∃ a b, i = .add a b ∨ i = .sub a b ∨ i = .mul a b ∨ i = .cmp a b) ∧
    ((opcodeOf i).getLsbD 4 = true ↔ i = .ret ∨ ∃ r, i = .call r ∨ i = .jmp r ∨ i = .jeq r ∨ i = .jne r)

/-! ### The step -/

/-- When the bytes at the program counter decode to `i` and the machine is RUNNING, a step is `exec i` (R72): the step itself
adds nothing around it, each handler moves the program counter. -/
def Obligations.StepRunsDecodedInstruction : Prop :=
  ∀ (s : State) (i : Instr) (rest : List Byte),
    s.status = .running → decode s.fetchBytes = .ok (i, rest) → step s = exec i s

/-- When the bytes of an instruction stand in memory at the program counter, a RUNNING step executes it: the bytes are those
memory holds at that step (R51), taken before the instruction's own writes. -/
def Obligations.StepRunsEncodedInstructionAtPc : Prop :=
  ∀ (s : State) (i : Instr), s.status = .running → s.HoldsAtPc (encode i) → step s = exec i s

/-- An instruction written to memory is the one fetched there, with no fence: after placing its bytes at the program
counter, and after a single store there, the fetch sees them (R51, R136). -/
def Obligations.FetchSeesEarlierWrites : Prop :=
  (∀ (s : State) (i : Instr), s.pc.toNat + (encode i).length ≤ 256 → (s.placeAtPc (encode i)).fetch = .ok i) ∧
  (∀ (s : State) (a v : Byte), s.pc = a.setWidth 9 → (s.store a v).fetchBytes.head? = some v)

/-- R67, R76: a step exists exactly when the status is RUNNING; elsewhere there is none. The named stops of clauses 2 and 3, which
`step` answers there, are the model's own (log 3, DEDUCED). -/
def Obligations.StepExistsExactlyWhenRunning : Prop :=
  (∀ s : State, (∃ t, step s = .next t) ↔ s.status = .running) ∧
  (∀ s : State, s.status = .halted → step s = .fault .halted) ∧
  (∀ (s : State) (r : FaultRecord), s.status = .faulted r → step s = .fault (.faulted r))

/-- R75: the engine repeats the step until HALTED or FAULTED, with no limit: a run of `k` steps goes on for one more exactly
when its state is RUNNING. -/
def Obligations.RunGoesOnExactlyWhileRunning : Prop :=
  ∀ (k : Nat) (s t : State), runSteps k s = .next t →
    ((∃ u, runSteps (k + 1) s = .next u) ↔ t.status = .running)

/-- R68: the opcode is the byte at `pc`; at `pc = 256` the step takes OutOfBoundsAccess(Memory, 256) with no opcode. -/
def Obligations.OpcodeFetchReadsPcOrFaults : Prop :=
  (∀ s : State, s.pc.toNat ≤ 255 → s.fetchBytes.head? = some (s.mem.get s.pc.toNat)) ∧
  (∀ s : State, s.status = .running → s.pc = 256 → step s = .next (s.asFaulted .outOfBoundsMemory none 256))

/-- R70, R108: an opcode with operands at address 255, or with two at 254, takes OutOfBoundsAccess(Memory, 256) before any
register check (the order is the spec's decision D9). -/
def Obligations.OperandFetchPastMemoryFaults : Prop :=
  (∀ s : State, s.status = .running → s.pc = 255 →
    s.mem.get 255 ∈ ([0x82, 0x47, 0xA0, 0xA1, 0xA2, 0x45, 0x46, 0x50, 0xA7, 0x54, 0x55, 0x56] : List Byte) →
    step s = .next (s.asFaulted .outOfBoundsMemory (some (s.mem.get 255)) 256)) ∧
  (∀ s : State, s.status = .running → s.pc = 254 →
    s.mem.get 254 ∈ ([0x82, 0xA0, 0xA1, 0xA2, 0xA7] : List Byte) →
    step s = .next (s.asFaulted .outOfBoundsMemory (some (s.mem.get 254)) 256))

/-- R61, R106: there are exactly 14 opcodes, and UnknownOpcode is taken exactly when the byte at `pc` (at most 255) is none of
them, with the record kind, `fpc = pc`, opcode and info the byte. -/
def Obligations.UnknownOpcodeFaults : Prop :=
  (opcodeBytes.Nodup ∧ opcodeBytes.length = 14) ∧
  (∀ s : State, s.status = .running → s.pc.toNat ≤ 255 → s.mem.get s.pc.toNat ∉ opcodeBytes →
    step s = .next (s.asFaulted .unknownOpcode (some (s.mem.get s.pc.toNat)) ((s.mem.get s.pc.toNat).setWidth 9))) ∧
  (∀ (s t : State) (r : FaultRecord), step s = .next t → t.status = .faulted r → r.kind = .unknownOpcode →
    s.pc.toNat ≤ 255 ∧ s.mem.get s.pc.toNat ∉ opcodeBytes)

/-- R71: every register operand is checked, op1 then op2, and the first above 7 is the one recorded; JEQ and JNE not taken
too (the spec's decision D10). -/
def Obligations.RegisterOperandOutOfRangeFaults : Prop :=
  ∀ (i : Instr) (s : State) (b : Byte), i.regOperands.find? (fun b => decide (7 < b.toNat)) = some b →
    exec i s = .next (s.asFaulted .outOfBoundsRegister (some (opcodeOf i)) (b.setWidth 9))

/-- R72, R112 (the order is the spec's decision D9; that a fault changes only the status is D8): a RUNNING step takes exactly
the first fault whose condition holds, changing nothing but the status, and takes none where none holds. -/
def Obligations.FirstFaultInPriorityOrder : Prop :=
  ∀ s : State, s.status = .running →
    ∃ t, step s = .next t ∧
      match firstFault s with
      | some r => t = { s with status := .faulted r }
      | none => ∀ r, t.status ≠ .faulted r

/-- R110: a fault sets `status <- FAULTED(record)` and does nothing else; the record holds the program counter of the faulting
instruction, is shown on the fault port, and no step leaves it. -/
def Obligations.FaultChangesOnlyStatus : Prop :=
  ∀ (s t : State) (r : FaultRecord), step s = .next t → t.status = .faulted r →
    t = { s with status := .faulted r } ∧ r.fpc = s.pc ∧ t.statusPorts.record = some r.ports ∧ ∀ u, step t ≠ .next u

/-- R86, R107 (unreachability is marked as derived by the spec): the ALU asked for another operation takes
UnsupportedALUOperation with the opcode byte as info, and no step of the machine ever takes it. -/
def Obligations.UnsupportedAluOperationNeverTaken : Prop :=
  (∀ (opcode : Byte) (a b : Reg) (s : State), execAlu .other opcode a.toByte b.toByte s =
    .next (s.asFaulted .unsupportedALUOperation (some opcode) (opcode.setWidth 9))) ∧
  (∀ (s t : State) (r : FaultRecord), step s = .next t → t.status = .faulted r → r.kind ≠ .unsupportedALUOperation)

/-- Every instruction whose register operands are 0..7 completes without a fault, in every state (CALL where its return
address fits in a byte, decision D3); only HLT changes the status (R72, R76, R140). -/
def Obligations.WellFormedInstructionCompletes : Prop :=
  ∀ (i : Instr) (s : State), i.wellFormed = true → (∀ r, i = .call r → s.pc.toNat + 2 ≤ 255) →
    ∃ t, exec i s = .next t ∧ ((i = .hlt ∧ t.status = .halted) ∨ (i ≠ .hlt ∧ t.status = s.status))

/-! ### The instructions: result and frame -/

/-- R78: HLT sets the status to HALTED and nothing else; that `pc` is kept is the spec's decision D13. -/
def Obligations.HltHaltsInPlace : Prop :=
  ∀ s : State, exec .hlt s = .next { s with status := .halted }

/-- R79: encoding, effect and frame, and the faults. That at address 254 the memory fault comes before the fault of a register
byte above 7 is the spec's decision D9 (R70, R112). -/
def Obligations.LdiLoadsImmediate : Prop :=
  (∀ r i : Byte, encode (.ldi r i) = [0b10000010, r, i]) ∧
  (∀ (r : Reg) (i : Byte) (s : State), ∃ t, exec (.ldi r.toByte i) s = .next t ∧
    t.readReg r = i ∧ t.pc = s.pc + 3 ∧ KeepsRegsBut s t [r] ∧ KeepsMemory s t ∧
    t.flags = s.flags ∧ t.status = s.status ∧ t.out = s.out) ∧
  (∀ (r i : Byte) (s : State), 7 < r.toNat →
    exec (.ldi r i) s = .next (s.asFaulted .outOfBoundsRegister (some 0x82) (r.setWidth 9))) ∧
  (∀ s : State, s.status = .running → (s.pc = 254 ∨ s.pc = 255) → s.mem.get s.pc.toNat = 0x82 →
    step s = .next (s.asFaulted .outOfBoundsMemory (some 0x82) 256))

/-- R80, whole: encoding, effect and frame, and the faults, which emit nothing. -/
def Obligations.PrnEmitsRegister : Prop :=
  (∀ r : Byte, encode (.prn r) = [0b01000111, r]) ∧
  (∀ (r : Reg) (s : State), ∃ t, exec (.prn r.toByte) s = .next t ∧
    t.out = s.out ++ [s.readReg r] ∧ t.pc = s.pc + 2 ∧ KeepsRegsBut s t [] ∧ KeepsMemory s t ∧
    t.flags = s.flags ∧ t.status = s.status) ∧
  (∀ (r : Byte) (s : State), 7 < r.toNat →
    exec (.prn r) s = .next (s.asFaulted .outOfBoundsRegister (some 0x47) (r.setWidth 9))) ∧
  (∀ s : State, s.status = .running → s.pc = 255 → s.mem.get 255 = 0x47 →
    step s = .next (s.asFaulted .outOfBoundsMemory (some 0x47) 256))

/-- R83: ADD writes the sum modulo 256 (wrapping is the spec's decision D1) to `x[a]`, and changes nothing else but `pc`. -/
def Obligations.AddWritesSumModulo256 : Prop :=
  ∀ (a b : Reg) (s : State), ∃ t, exec (.add a.toByte b.toByte) s = .next t ∧
    (t.readReg a).toNat = ((s.readReg a).toNat + (s.readReg b).toNat) % 256 ∧ t.pc = s.pc + 3 ∧
    KeepsRegsBut s t [a] ∧ KeepsMemory s t ∧ t.flags = s.flags ∧ t.status = s.status ∧ t.out = s.out

/-- R84: SUB writes the mathematical difference modulo 256 (decision D1) to `x[a]`, and changes nothing else but `pc`. -/
def Obligations.SubWritesDifferenceModulo256 : Prop :=
  ∀ (a b : Reg) (s : State), ∃ t, exec (.sub a.toByte b.toByte) s = .next t ∧
    ((t.readReg a).toNat : Int) = (((s.readReg a).toNat : Int) - ((s.readReg b).toNat : Int)) % 256 ∧ t.pc = s.pc + 3 ∧
    KeepsRegsBut s t [a] ∧ KeepsMemory s t ∧ t.flags = s.flags ∧ t.status = s.status ∧ t.out = s.out

/-- R85: MUL writes the low 8 bits of the unsigned product (decision D1) to `x[a]`, and changes nothing else but `pc`. -/
def Obligations.MulWritesProductModulo256 : Prop :=
  ∀ (a b : Reg) (s : State), ∃ t, exec (.mul a.toByte b.toByte) s = .next t ∧
    (t.readReg a).toNat = ((s.readReg a).toNat * (s.readReg b).toNat) % 256 ∧ t.pc = s.pc + 3 ∧
    KeepsRegsBut s t [a] ∧ KeepsMemory s t ∧ t.flags = s.flags ∧ t.status = s.status ∧ t.out = s.out

/-- R92: PUSH decrements SP modulo 256 (decision D1), stores at the new SP the register read after the decrement (so PUSH R7
stores the decremented SP, decision D15), and changes no other byte, register or flag. -/
def Obligations.PushStoresAtDecrementedSp : Prop :=
  ∀ (r : Reg) (s : State), ∃ t, exec (.push r.toByte) s = .next t ∧
    s.pushAddr.toNat = ((s.readReg .r7).toNat + 255) % 256 ∧ t.readReg .r7 = s.pushAddr ∧
    t.mem.get s.pushAddr.toNat = (if r = .r7 then s.pushAddr else s.readReg r) ∧ KeepsMemoryBut s t s.pushAddr.toNat ∧
    t.pc = s.pc + 2 ∧ KeepsRegsBut s t [.r7] ∧ t.flags = s.flags ∧ t.status = s.status ∧ t.out = s.out

/-- R93: POP writes the byte at SP to `x[r]`, then increments SP modulo 256 (decision D1), read after that write (so POP R7
leaves the loaded byte plus one, decision D15), and stores nothing. -/
def Obligations.PopLoadsThenIncrementsSp : Prop :=
  ∀ (r : Reg) (s : State), ∃ t, exec (.pop r.toByte) s = .next t ∧
    (r ≠ .r7 → t.readReg r = s.mem.get (s.readReg .r7).toNat ∧
      (t.readReg .r7).toNat = ((s.readReg .r7).toNat + 1) % 256) ∧
    (r = .r7 → (t.readReg .r7).toNat = ((s.mem.get (s.readReg .r7).toNat).toNat + 1) % 256) ∧
    t.pc = s.pc + 2 ∧ KeepsRegsBut s t [r, .r7] ∧ KeepsMemory s t ∧
    t.flags = s.flags ∧ t.status = s.status ∧ t.out = s.out

/-- R94: CALL at an address up to 253 pushes `pc + 2` at SP - 1 modulo 256 (decision D1) and jumps to `x[r]` read after the push
(so CALL R7 jumps to the decremented SP, decision D15), and changes nothing else. -/
def Obligations.CallPushesReturnAddressAndJumps : Prop :=
  ∀ (r : Reg) (s : State), s.pc.toNat ≤ 253 → ∃ t, exec (.call r.toByte) s = .next t ∧
    s.pushAddr.toNat = ((s.readReg .r7).toNat + 255) % 256 ∧ t.readReg .r7 = s.pushAddr ∧
    (t.mem.get s.pushAddr.toNat).toNat = s.pc.toNat + 2 ∧ KeepsMemoryBut s t s.pushAddr.toNat ∧
    t.pc.toNat = (if r = .r7 then s.pushAddr.toNat else (s.readReg r).toNat) ∧
    KeepsRegsBut s t [.r7] ∧ t.flags = s.flags ∧ t.status = s.status ∧ t.out = s.out

/-- R94: CALL at address 254 takes OutOfBoundsAccess(Memory, 256) before any write (decision D3). -/
def Obligations.CallAtAddress254Faults : Prop :=
  ∀ (r : Reg) (s : State), s.pc = 254 →
    exec (.call r.toByte) s = .next (s.asFaulted .outOfBoundsMemory (some 0x50) 256)

/-- R95: RET sets `pc` to the byte at SP and increments SP once (decision D14), modulo 256 (decision D1). -/
def Obligations.RetPopsProgramCounter : Prop :=
  ∀ s : State, ∃ t, exec .ret s = .next t ∧
    t.pc.toNat = (s.mem.get (s.readReg .r7).toNat).toNat ∧
    (t.readReg .r7).toNat = ((s.readReg .r7).toNat + 1) % 256 ∧
    KeepsRegsBut s t [.r7] ∧ KeepsMemory s t ∧ t.flags = s.flags ∧ t.status = s.status ∧ t.out = s.out

/-- R99: CMP sets E, L, G by the unsigned comparison (decision D20) of `x[a]` and `x[b]`, whatever they were, and changes
nothing else but `pc`. -/
def Obligations.CmpSetsFlagsByUnsignedComparison : Prop :=
  ∀ (a b : Reg) (s : State), ∃ t, exec (.cmp a.toByte b.toByte) s = .next t ∧
    (t.flags.E = true ↔ (s.readReg a).toNat = (s.readReg b).toNat) ∧
    (t.flags.L = true ↔ (s.readReg a).toNat < (s.readReg b).toNat) ∧
    (t.flags.G = true ↔ (s.readReg b).toNat < (s.readReg a).toNat) ∧ t.pc = s.pc + 3 ∧
    KeepsRegsBut s t [] ∧ KeepsMemory s t ∧ t.status = s.status ∧ t.out = s.out

/-- R100, whole: encoding, effect and frame, and the faults. -/
def Obligations.JmpSetsPcFromRegister : Prop :=
  (∀ r : Byte, encode (.jmp r) = [0b01010100, r]) ∧
  (∀ (r : Reg) (s : State), ∃ t, exec (.jmp r.toByte) s = .next t ∧
    t.pc.toNat = (s.readReg r).toNat ∧ KeepsRegsBut s t [] ∧ KeepsMemory s t ∧
    t.flags = s.flags ∧ t.status = s.status ∧ t.out = s.out) ∧
  (∀ (r : Byte) (s : State), 7 < r.toNat →
    exec (.jmp r) s = .next (s.asFaulted .outOfBoundsRegister (some 0x54) (r.setWidth 9))) ∧
  (∀ s : State, s.status = .running → s.pc = 255 → s.mem.get 255 = 0x54 →
    step s = .next (s.asFaulted .outOfBoundsMemory (some 0x54) 256))

/-- R101: JEQ sets `pc` to `x[r]` when E is 1, else to `pc + 2`, and changes nothing else. -/
def Obligations.JeqFollowsEqualFlag : Prop :=
  ∀ (r : Reg) (s : State), ∃ t, exec (.jeq r.toByte) s = .next t ∧
    (s.flags.E = true → t.pc.toNat = (s.readReg r).toNat) ∧ (s.flags.E = false → t.pc = s.pc + 2) ∧
    KeepsRegsBut s t [] ∧ KeepsMemory s t ∧ t.flags = s.flags ∧ t.status = s.status ∧ t.out = s.out

/-- R102: JNE sets `pc` to `x[r]` when E is 0, else to `pc + 2`, and changes nothing else. -/
def Obligations.JneFollowsEqualFlag : Prop :=
  ∀ (r : Reg) (s : State), ∃ t, exec (.jne r.toByte) s = .next t ∧
    (s.flags.E = false → t.pc.toNat = (s.readReg r).toNat) ∧ (s.flags.E = true → t.pc = s.pc + 2) ∧
    KeepsRegsBut s t [] ∧ KeepsMemory s t ∧ t.flags = s.flags ∧ t.status = s.status ∧ t.out = s.out

/-! ### Whole-machine rules -/

/-- R26: only CMP writes the flags, and each CMP overwrites all three, so that exactly one is 1; no other step, a faulting one
among them, changes any. -/
def Obligations.OnlyCmpWritesFlags : Prop :=
  (∀ (a b : Reg) (s : State) (f : Flags), ∃ t, exec (.cmp a.toByte b.toByte) { s with flags := f } = .next t ∧
    exec (.cmp a.toByte b.toByte) s = .next t ∧
    (t.flags = ⟨true, false, false⟩ ∨ t.flags = ⟨false, true, false⟩ ∨ t.flags = ⟨false, false, true⟩)) ∧
  (∀ (i : Instr) (s t : State), exec i s = .next t → (∀ a b, i ≠ .cmp a b) → t.flags = s.flags) ∧
  (∀ s t : State, step s = .next t → s.mem.get s.pc.toNat ≠ 0xA7 → t.flags = s.flags)

/-- R27 (marked as derived by the spec): only JEQ and JNE read the flags, and only E. Changing the flags without changing E, or
for any other instruction at all, changes nothing else of the result. -/
def Obligations.OnlyJumpsReadFlagsAndOnlyE : Prop :=
  ∀ (i : Instr) (s t : State) (f : Flags), (f.E = s.flags.E ∨ ∀ r, i ≠ .jeq r ∧ i ≠ .jne r) → exec i s = .next t →
    ∃ u, exec i { s with flags := f } = .next u ∧ { u with flags := t.flags } = t

/-- R16: the registers an instruction writes are those of the table, the registers it reads are those of the table (changing
another register changes nothing of the result but that register), and only instruction handlers write registers. -/
def Obligations.RegistersReadAndWrittenAsTabled : Prop :=
  (∀ (i : Instr) (s t : State), exec i s = .next t → KeepsRegsBut s t (writesOf i)) ∧
  (∀ (i : Instr) (s t : State) (q : Reg) (v : Byte), exec i s = .next t → q ∉ readsOf s.flags.E i →
    ∃ u, exec i (s.writeReg q v) = .next u ∧ AgreeBut q t u) ∧
  (∀ s t : State, step s = .next t → t.regs ≠ s.regs → ∃ i, s.fetch = .ok i ∧ exec i s = .next t)

/-- R39, R45: only PUSH and CALL write memory, one byte, at the new SP, which is SP - 1 modulo 256 (decision D1). -/
def Obligations.OnlyPushAndCallWriteMemory : Prop :=
  ∀ s t : State, step s = .next t → KeepsMemory s t ∨
    ((s.mem.get s.pc.toNat = 0x45 ∨ s.mem.get s.pc.toNat = 0x50) ∧ s.pc.toNat ≤ 255 ∧
      (t.readReg .r7).toNat = ((s.readReg .r7).toNat + 255) % 256 ∧ KeepsMemoryBut s t (t.readReg .r7).toNat)

/-- R29: a step enters HALTED only by executing HLT, and keeps `pc` there (decision D13). -/
def Obligations.OnlyHltEntersHalted : Prop :=
  ∀ s t : State, step s = .next t → t.status = .halted →
    s.pc.toNat ≤ 255 ∧ s.mem.get s.pc.toNat = 0x01 ∧ t = { s with status := .halted }

/-- R33, R80, R134: a step pulses the output port with `x[r]` exactly when it completes a PRN of register `r`, and the output
grows by exactly the byte pulsed (the port is decision D16; holding the output in the state is log 1). -/
def Obligations.OutputGrowsOnlyByPrn : Prop :=
  ∀ s t : State, step s = .next t →
    (outPulse s t = none ∧ t.out = s.out ∧
      (s.mem.get s.pc.toNat = 0x47 → ∃ r, t.status = .faulted r)) ∨
    (∃ r : Reg, s.pc.toNat ≤ 254 ∧ s.mem.get s.pc.toNat = 0x47 ∧ s.mem.get (s.pc.toNat + 1) = r.toByte ∧
      outPulse s t = some (s.readReg r) ∧ t.out = s.out ++ [s.readReg r] ∧ t.status = .running)

/-- R20 (the range is decision D2): `pc = 256` is reached only by falling through past the last cell. -/
def Obligations.PcReaches256OnlyByFallThrough : Prop :=
  ∀ s t : State, step s = .next t → s.pc.toNat ≤ 255 → t.pc = 256 →
    (s.pc = 254 ∧ s.mem.get 254 ∈ ([0x47, 0x45, 0x46, 0x55, 0x56] : List Byte)) ∨
    (s.pc = 253 ∧ s.mem.get 253 ∈ ([0x82, 0xA0, 0xA1, 0xA2, 0xA7] : List Byte))

/-! ### The invariant -/

/-- Every step keeps the invariant `State.Inv`: `pc` is 0..256, memory is in canonical form, at most one flag is set, and a
fault record holds only what R32 and R105 to R108 allow (a memory fault always address 256). -/
def Obligations.StepKeepsInvariant : Prop :=
  ∀ s t : State, s.Inv → step s = .next t → t.Inv

/-- The state after reset meets the invariant. That `State.reset` has no image, so that it is the boot of the empty one and
its status HALTED, is the model's choice (log 4). -/
def Obligations.ResetMeetsInvariant : Prop :=
  State.reset.Inv ∧ State.reset.status = .halted ∧ boot [] State.reset = some State.reset

/-- The state after a boot meets the invariant, for every image the host accepts and every canonical memory before it (every `MEM_TAIL`, R47). -/
def Obligations.BootMeetsInvariant : Prop :=
  ∀ (values : List Nat) (s t : State), s.mem.wf → boot values s = some t → t.Inv

/-- Along every run the invariant holds and the output only grows (R33, R76). -/
def Obligations.RunKeepsInvariantAndOutput : Prop :=
  ∀ (k : Nat) (s t : State), s.Inv → runSteps k s = .next t → t.Inv ∧ s.out <+: t.out

/-! ### Memory -/

/-- R37: MemRead returns the byte where `0 <= addr <= 255` and none, where the step raises its fault, elsewhere. That it has no
side effect is its type: it answers a byte and no memory. -/
def Obligations.MemReadAnswersOnlyInRange : Prop :=
  ∀ (m : Memory) (a : Nat), (a ≤ 255 → m.read? a = some (m.get a)) ∧ (255 < a → m.read? a = none)

/-- R38: MemWrite sets the cell where `0 <= addr <= 255`, writes no other cell, and answers none elsewhere. -/
def Obligations.MemWriteSetsOneCell : Prop :=
  ∀ (m : Memory) (a : Nat) (v : Byte),
    (a ≤ 255 → ∃ m', m.write? a v = some m' ∧ m'.get a = v ∧ ∀ x, x ≠ a → m'.get x = m.get x) ∧
    (255 < a → m.write? a v = none)

/-- The model's canonical form makes equal memories equal data: two canonical memories that read alike are the same (the form
is the model's own, R36). -/
def Obligations.EqualMemoriesAreEqualData : Prop :=
  ∀ m m' : Memory, m.wf → m'.wf → (∀ a, m.get a = m'.get a) → m = m'

/-! ### The stack, calls and branches -/

/-- R91 (marked as derived): a pushed value pops back with SP as it was and stays in its cell, and PUSH r then POP r leaves
every register as it was, R7 among them. -/
def Obligations.PushThenPopRestores : Prop :=
  (∀ (s : State) (v : Byte), (s.pushValue v).popValue.1 = v ∧
    (s.pushValue v).popValue.2.readReg .r7 = s.readReg .r7 ∧
    (s.pushValue v).popValue.2.mem.get s.pushAddr.toNat = v) ∧
  (∀ (r : Reg) (s t : State), exec (.push r.toByte) s = .next t →
    ∃ u, exec (.pop r.toByte) t = .next u ∧ u.regs = s.regs)

/-- R96 (marked as derived): a CALL at `p <= 253`, and then a RET from a state whose SP and top byte are as after the push,
resumes at `p + 2` with SP as before the CALL. -/
def Obligations.CallThenRetResumes : Prop :=
  ∀ (r : Reg) (s t u : State), s.pc.toNat ≤ 253 → exec (.call r.toByte) s = .next t →
    u.readReg .r7 = t.readReg .r7 → u.mem.get (t.readReg .r7).toNat = t.mem.get (t.readReg .r7).toNat →
    ∃ w, exec .ret u = .next w ∧ w.pc.toNat = s.pc.toNat + 2 ∧ w.readReg .r7 = s.readReg .r7

/-- R104 (marked as derived): after a CMP, JEQ is taken exactly when the two registers were equal and JNE exactly when they were
not. -/
def Obligations.BranchesFollowComparison : Prop :=
  ∀ (a b r : Reg) (s t : State), exec (.cmp a.toByte b.toByte) s = .next t →
    ∃ u w, exec (.jeq r.toByte) t = .next u ∧ exec (.jne r.toByte) t = .next w ∧
      (s.readReg a = s.readReg b → u.pc.toNat = (s.readReg r).toNat ∧ w.pc = t.pc + 2) ∧
      (s.readReg a ≠ s.readReg b → u.pc = t.pc + 2 ∧ w.pc.toNat = (s.readReg r).toNat)

/-! ### Reset and the host -/

/-- R18, R24: after reset R0..R6 are 0, R7 is 0xF4 and `pc` is 0, from whatever state reset is asserted in. -/
def Obligations.ResetSetsRegistersAndPc : Prop :=
  ∀ t : State, (t = State.reset ∨ ∃ (progEmpty : Bool) (s : State), t = hostReset progEmpty s) →
    t.readReg .r7 = 0xF4 ∧ (∀ r, r ≠ .r7 → t.readReg r = 0) ∧ t.pc = 0

/-- R31: after a boot the status is HALTED if the image is empty, otherwise RUNNING, whatever stood before; and HLT is the only
instruction that enters HALTED. -/
def Obligations.EmptyImageStartsHalted : Prop :=
  (∀ s : State, ∃ t, boot [] s = some t ∧ t.status = .halted) ∧
  (∀ (values : List Nat) (s t : State), values ≠ [] → boot values s = some t → t.status = .running) ∧
  (∀ (i : Instr) (s t : State), exec i s = .next t → s.status ≠ .halted → t.status = .halted → i = .hlt)

/-- R129: byte `k` of an image of at most 256 bytes is written to `mem[k]`; an image longer than 256 bytes or with a value
above 255 is refused before any run: it is neither loaded nor booted. -/
def Obligations.ImageBytesLoadedInOrder : Prop :=
  (∀ (values : List Nat) (s : State), values.length ≤ 256 → (∀ v ∈ values, v ≤ 255) →
    ∃ t, loadImage values s = some t ∧ ∀ k (h : k < values.length), (t.mem.get k).toNat = values[k]) ∧
  (∀ (values : List Nat) (s : State), (256 < values.length ∨ ∃ v ∈ values, 255 < v) →
    loadImage values s = none ∧ boot values s = none)

/-- R131 (decision D7): the host refuses exactly the images longer than 256 bytes or with a value above 255, and the CORE is then
not started, whatever stood before; no boot is a CORE fault. -/
def Obligations.BootRefusesExactlyUnfitImages : Prop :=
  (∀ (values : List Nat) (s : State), boot values s = none ↔ (256 < values.length ∨ ∃ v ∈ values, 255 < v)) ∧
  (∀ (values : List Nat) (s t : State), boot values s = some t → ∀ r, t.status ≠ .faulted r)

/-- R47, R123, R124 (D4, D6, D18): after a boot the image stands at the low addresses, every other byte is what stood before
(`MEM_TAIL`, any value), the flags are 0 and no output has been emitted. -/
def Obligations.BootKeepsMemTail : Prop :=
  ∀ (values : List Nat) (s t : State), boot values s = some t →
    (∀ k, (t.mem.get k).toNat = if h : k < values.length then values[k] else (s.mem.get k).toNat) ∧
    t.flags = ⟨false, false, false⟩ ∧ t.out = []

/-- R124, R125, R132, R135 (the ports are decision D17): with `rst = 1` the machine does not step and is in the reset state with
its memory kept but for the load write presented; with `rst = 0` the load port changes nothing. -/
def Obligations.ResetInputAbandonsStepAndKeepsMemory : Prop :=
  (∀ (inp : HostInputs) (s : State), inp.rst = true → ∃ t, hostTick inp s = .next t ∧
    t.regs = State.reset.regs ∧ t.pc = 0 ∧ t.flags = State.reset.flags ∧
    t.status = (if inp.progEmpty then .halted else .running) ∧
    (∀ x, t.mem.get x = if inp.ldWe ∧ x = inp.ldAddr.toNat then inp.ldData else s.mem.get x)) ∧
  (∀ (inp : HostInputs) (s : State), inp.rst = false → hostTick inp s = step s)

/-- R105, R132, R134, R28 (decisions D5, D11, D17): what the status ports show. -/
def Obligations.StatusPortsShowStatusAndRecord : Prop :=
  ∀ s : State,
    (s.statusPorts.halted = true ↔ s.status = .halted) ∧
    (s.statusPorts.faulted = true ↔ ∃ r, s.status = .faulted r) ∧
    (s.statusPorts.faultCode = 0 ↔ ∀ r, s.status ≠ .faulted r) ∧
    (∀ r, s.status = .faulted r → s.statusPorts.record = some ⟨r.fpc, r.opcode.getD 0, r.opcode.isSome, r.info⟩ ∧
      (r.kind = .unknownOpcode → s.statusPorts.faultCode = 1) ∧
      (r.kind = .unsupportedALUOperation → s.statusPorts.faultCode = 2) ∧
      (r.kind = .outOfBoundsMemory → s.statusPorts.faultCode = 3) ∧
      (r.kind = .outOfBoundsRegister → s.statusPorts.faultCode = 4)) ∧
    s.statusPorts.flags.getLsbD 2 = s.flags.L ∧ s.statusPorts.flags.getLsbD 1 = s.flags.G ∧
    s.statusPorts.flags.getLsbD 0 = s.flags.E
end

