-- ==== Sys2Proof/Laws/State.lean ====
section
/-! SUPPORT. One lemma per field per update of State, and the register file's read-after-write law. -/

namespace Sys2Proof.Machine

variable (s : State)

/-- The stack pointer is R7; every law is stated with R7. -/
@[simp] theorem Reg.sp_eq : Reg.sp = .r7 := rfl

/-- Reading a register after writing one. -/
theorem RegFile.get_set (f : RegFile) (r q : Reg) (v : Byte) :
    (f.set r v).get q = if q = r then v else f.get q := by
  cases r <;> cases q <;> rfl

/-- Reading a register after writing one, on the state. -/
@[simp] theorem State.readReg_writeReg (r q : Reg) (v : Byte) :
    (s.writeReg r v).readReg q = if q = r then v else s.readReg q :=
  RegFile.get_set s.regs r q v

@[simp] theorem State.writeReg_mem (r : Reg) (v : Byte) : (s.writeReg r v).mem = s.mem := rfl
@[simp] theorem State.writeReg_pc (r : Reg) (v : Byte) : (s.writeReg r v).pc = s.pc := rfl
@[simp] theorem State.writeReg_flags (r : Reg) (v : Byte) : (s.writeReg r v).flags = s.flags := rfl
@[simp] theorem State.writeReg_status (r : Reg) (v : Byte) : (s.writeReg r v).status = s.status := rfl
@[simp] theorem State.writeReg_out (r : Reg) (v : Byte) : (s.writeReg r v).out = s.out := rfl

@[simp] theorem State.store_regs (a v : Byte) : (s.store a v).regs = s.regs := rfl
@[simp] theorem State.store_pc (a v : Byte) : (s.store a v).pc = s.pc := rfl
@[simp] theorem State.store_flags (a v : Byte) : (s.store a v).flags = s.flags := rfl
@[simp] theorem State.store_status (a v : Byte) : (s.store a v).status = s.status := rfl
@[simp] theorem State.store_out (a v : Byte) : (s.store a v).out = s.out := rfl
@[simp] theorem State.store_mem (a v : Byte) : (s.store a v).mem = s.mem.set a.toNat v := rfl
@[simp] theorem State.store_readReg (a v : Byte) (q : Reg) : (s.store a v).readReg q = s.readReg q := rfl

@[simp] theorem State.advance_mem (n : Nat) : (s.advance n).mem = s.mem := rfl
@[simp] theorem State.advance_regs (n : Nat) : (s.advance n).regs = s.regs := rfl
@[simp] theorem State.advance_flags (n : Nat) : (s.advance n).flags = s.flags := rfl
@[simp] theorem State.advance_status (n : Nat) : (s.advance n).status = s.status := rfl
@[simp] theorem State.advance_out (n : Nat) : (s.advance n).out = s.out := rfl
@[simp] theorem State.advance_pc (n : Nat) : (s.advance n).pc = s.pc + BitVec.ofNat 9 n := rfl
@[simp] theorem State.advance_readReg (n : Nat) (q : Reg) : (s.advance n).readReg q = s.readReg q := rfl

@[simp] theorem State.jump_mem (b : Byte) : (s.jump b).mem = s.mem := rfl
@[simp] theorem State.jump_regs (b : Byte) : (s.jump b).regs = s.regs := rfl
@[simp] theorem State.jump_flags (b : Byte) : (s.jump b).flags = s.flags := rfl
@[simp] theorem State.jump_status (b : Byte) : (s.jump b).status = s.status := rfl
@[simp] theorem State.jump_out (b : Byte) : (s.jump b).out = s.out := rfl
@[simp] theorem State.jump_pc (b : Byte) : (s.jump b).pc = addr9 b := rfl
@[simp] theorem State.jump_readReg (b : Byte) (q : Reg) : (s.jump b).readReg q = s.readReg q := rfl

@[simp] theorem State.emit_mem (v : Byte) : (s.emit v).mem = s.mem := rfl
@[simp] theorem State.emit_regs (v : Byte) : (s.emit v).regs = s.regs := rfl
@[simp] theorem State.emit_pc (v : Byte) : (s.emit v).pc = s.pc := rfl
@[simp] theorem State.emit_flags (v : Byte) : (s.emit v).flags = s.flags := rfl
@[simp] theorem State.emit_status (v : Byte) : (s.emit v).status = s.status := rfl
@[simp] theorem State.emit_out (v : Byte) : (s.emit v).out = s.out ++ [v] := rfl
@[simp] theorem State.emit_readReg (v : Byte) (q : Reg) : (s.emit v).readReg q = s.readReg q := rfl

@[simp] theorem State.halt_mem : s.halt.mem = s.mem := rfl
@[simp] theorem State.halt_regs : s.halt.regs = s.regs := rfl
@[simp] theorem State.halt_pc : s.halt.pc = s.pc := rfl
@[simp] theorem State.halt_flags : s.halt.flags = s.flags := rfl
@[simp] theorem State.halt_out : s.halt.out = s.out := rfl
@[simp] theorem State.halt_status : s.halt.status = .halted := rfl
@[simp] theorem State.halt_readReg  (q : Reg) : s.halt.readReg q = s.readReg q := rfl

@[simp] theorem State.writeFlags_mem (f : Flags) : (s.writeFlags f).mem = s.mem := rfl
@[simp] theorem State.writeFlags_regs (f : Flags) : (s.writeFlags f).regs = s.regs := rfl
@[simp] theorem State.writeFlags_pc (f : Flags) : (s.writeFlags f).pc = s.pc := rfl
@[simp] theorem State.writeFlags_status (f : Flags) : (s.writeFlags f).status = s.status := rfl
@[simp] theorem State.writeFlags_out (f : Flags) : (s.writeFlags f).out = s.out := rfl
@[simp] theorem State.writeFlags_flags (f : Flags) : (s.writeFlags f).flags = f := rfl
@[simp] theorem State.writeFlags_readReg (f : Flags) (q : Reg) : (s.writeFlags f).readReg q = s.readReg q := rfl

@[simp] theorem State.raise_mem (k : FaultKind) (o : Option Byte) (n : Addr9) : (s.raise k o n).mem = s.mem := rfl
@[simp] theorem State.raise_regs (k : FaultKind) (o : Option Byte) (n : Addr9) : (s.raise k o n).regs = s.regs := rfl
@[simp] theorem State.raise_pc (k : FaultKind) (o : Option Byte) (n : Addr9) : (s.raise k o n).pc = s.pc := rfl
@[simp] theorem State.raise_flags (k : FaultKind) (o : Option Byte) (n : Addr9) : (s.raise k o n).flags = s.flags := rfl
@[simp] theorem State.raise_out (k : FaultKind) (o : Option Byte) (n : Addr9) : (s.raise k o n).out = s.out := rfl
@[simp] theorem State.raise_status (k : FaultKind) (o : Option Byte) (n : Addr9) : (s.raise k o n).status = .faulted { kind := k, fpc := s.pc, opcode := o, info := n } := rfl
@[simp] theorem State.raise_readReg (k : FaultKind) (o : Option Byte) (n : Addr9) (q : Reg) : (s.raise k o n).readReg q = s.readReg q := rfl

/-- Loading a byte reads memory. -/
theorem State.load_eq (a : Byte) : s.load a = s.mem.get a.toNat := rfl

/-- Two register files that answer every read alike are equal. -/
theorem RegFile.ext_get {f g : RegFile} (h : ∀ r, f.get r = g.get r) : f = g := by
  cases f; cases g
  have h0 := h .r0; have h1 := h .r1; have h2 := h .r2; have h3 := h .r3
  have h4 := h .r4; have h5 := h .r5; have h6 := h .r6; have h7 := h .r7
  simp only [RegFile.get] at h0 h1 h2 h3 h4 h5 h6 h7
  simp only [h0, h1, h2, h3, h4, h5, h6, h7]

end Sys2Proof.Machine
end

