-- ==== Sys2Proof/Laws/Memory.lean ====
section
/-! SUPPORT. The laws of memory: read after write, one cell written, the canonical form kept by every operation. -/

namespace Sys2Proof.Machine

/-! ### Read after write -/

theorem cellsGet_filter_self (cs : List Host.Cell) (a : Nat) :
    cellsGet (cs.filter fun c => c.1 ≠ a) a = Config.unwrittenByte := by
  induction cs with
  | nil => rfl
  | cons c cs ih =>
    by_cases h : c.1 = a
    · simpa [List.filter_cons, h] using ih
    · simpa [List.filter_cons, h, cellsGet] using ih

theorem cellsGet_filter_other (cs : List Host.Cell) {a x : Nat} (hx : x ≠ a) :
    cellsGet (cs.filter fun c => c.1 ≠ a) x = cellsGet cs x := by
  induction cs with
  | nil => rfl
  | cons c cs ih =>
    by_cases h : c.1 = a
    · have hc : c.1 ≠ x := fun e => hx (e.symm.trans h)
      simpa [List.filter_cons, h, cellsGet, hx.symm] using ih
    · by_cases hc : c.1 = x <;> simp_all [cellsGet]

theorem cellsGet_insert_self {cs : List Host.Cell} {a : Nat} (v : Byte) (h : ∀ c ∈ cs, c.1 ≠ a) :
    cellsGet (cellsInsert cs a v) a = v := by
  induction cs with
  | nil => simp [cellsInsert, cellsGet]
  | cons c cs ih =>
    have hc : c.1 ≠ a := h c (by simp)
    by_cases hlt : a < c.1
    · simp [cellsInsert, hlt, cellsGet]
    · simpa [cellsInsert, hlt, cellsGet, hc] using ih fun d hd => h d (by simp [hd])

theorem cellsGet_insert_other (cs : List Host.Cell) {a x : Nat} (v : Byte) (hx : x ≠ a) :
    cellsGet (cellsInsert cs a v) x = cellsGet cs x := by
  induction cs with
  | nil => simp [cellsInsert, cellsGet, hx.symm]
  | cons c cs ih =>
    by_cases hlt : a < c.1
    · simp [cellsInsert, hlt, cellsGet, hx.symm]
    · simp [cellsInsert, hlt, cellsGet, ih]

/-- Reading a byte after writing one (R37, R38), in any memory. -/
@[simp] theorem Memory.get_set (m : Memory) (a x : Nat) (v : Byte) :
    (m.set a v).get x = if x = a then v else m.get x := by
  by_cases hv : v = Config.unwrittenByte
  · by_cases hx : x = a
    · simpa [Memory.set, Memory.get, hv, hx] using cellsGet_filter_self m.cells a
    · simpa [Memory.set, Memory.get, hv, hx] using cellsGet_filter_other m.cells hx
  · by_cases hx : x = a
    · subst hx
      simpa [Memory.set, Memory.get, hv] using cellsGet_insert_self v (by simp)
    · simpa [Memory.set, Memory.get, hv, hx] using
        (cellsGet_insert_other _ v hx).trans (cellsGet_filter_other m.cells hx)

/-! ### The canonical form -/

theorem mem_cellsInsert {cs : List Host.Cell} {a : Nat} {v : Byte} {c : Host.Cell} :
    c ∈ cellsInsert cs a v ↔ c = (a, v) ∨ c ∈ cs := by
  induction cs with
  | nil => simp [cellsInsert]
  | cons d cs ih =>
    by_cases hlt : a < d.1
    · simp [cellsInsert, hlt]
    · simp only [cellsInsert, hlt, if_false, List.mem_cons, ih]
      tauto

theorem cellsInsert_pairwise {cs : List Host.Cell} {a : Nat} (v : Byte)
    (hs : cs.Pairwise fun c d => c.1 < d.1) (h : ∀ c ∈ cs, c.1 ≠ a) :
    (cellsInsert cs a v).Pairwise fun c d => c.1 < d.1 := by
  induction cs with
  | nil => simp [cellsInsert]
  | cons d cs ih =>
    rw [List.pairwise_cons] at hs
    have hd : d.1 ≠ a := h d (by simp)
    by_cases hlt : a < d.1
    · simp only [cellsInsert, hlt, if_true, List.pairwise_cons, List.mem_cons]
      refine ⟨?_, hs.1, hs.2⟩
      rintro c (rfl | hc)
      · exact hlt
      · exact hlt.trans (hs.1 c hc)
    · simp only [cellsInsert, hlt, if_false, List.pairwise_cons]
      refine ⟨fun c hc => ?_, ih hs.2 fun c hc => h c (by simp [hc])⟩
      rcases mem_cellsInsert.1 hc with rfl | hc
      · show d.1 < a; omega
      · exact hs.1 c hc

/-- Writing one cell keeps the canonical form. -/
theorem Memory.set_wf {m : Memory} (hm : m.wf) {a : Nat} (ha : a < Config.memSize) (v : Byte) : (m.set a v).wf := by
  have hs := hm.1.filter fun c => c.1 ≠ a
  by_cases hv : v = Config.unwrittenByte
  · simp only [Memory.wf, Memory.set, hv, if_true]
    exact ⟨hs, fun c hc => hm.2 c (List.mem_of_mem_filter hc)⟩
  · simp only [Memory.wf, Memory.set, hv, if_false]
    refine ⟨cellsInsert_pairwise v hs (by simp), fun c hc => ?_⟩
    rcases mem_cellsInsert.1 hc with rfl | hc
    · exact ⟨ha, hv⟩
    · exact hm.2 c (List.mem_of_mem_filter hc)

/-- A checked write keeps the canonical form. -/
theorem Memory.write?_wf {m m' : Memory} (hm : m.wf) {a : Nat} {v : Byte} (h : m.write? a v = some m') : m'.wf := by
  unfold Memory.write? at h
  split at h
  · cases h; exact Memory.set_wf hm ‹_› v
  · cases h

/-- Placing bytes keeps the canonical form. -/
theorem Memory.place_wf (bs : List Byte) : ∀ {m : Memory}, m.wf → ∀ a, (m.place a bs).wf := by
  induction bs with
  | nil => exact fun hm _ => hm
  | cons b bs ih =>
    intro m hm a
    refine ih ?_ (a + 1)
    cases h : m.write? a b with
    | none => exact hm
    | some m' => exact Memory.write?_wf hm h

/-- A store at a byte address keeps the canonical form. -/
theorem State.store_wf {s : State} (hm : s.mem.wf) (a v : Byte) : (s.store a v).mem.wf :=
  Memory.set_wf hm a.isLt v

/-- The memory after reset has the canonical form. -/
theorem State.reset_mem_wf : State.reset.mem.wf := by decide

/-- Writing a byte address is the checked write there, which never fails (R54). -/
theorem Memory.write?_byte (m : Memory) (a v : Byte) : m.write? a.toNat v = some (m.set a.toNat v) := by
  simp [Memory.write?, Config.memSize, a.isLt]

/-- What placing bytes leaves at an address: the byte placed there, or what stood there. -/
theorem Memory.get_place (bs : List Byte) (x : Nat) : ∀ (m : Memory) (a : Nat), a + bs.length ≤ Config.memSize →
    (m.place a bs).get x = if a ≤ x then (bs[x - a]?).getD (m.get x) else m.get x := by
  induction bs with
  | nil => intro m a _; simp [Memory.place]
  | cons b bs ih =>
    intro m a h
    have hlt : a < Config.memSize := by simp at h; omega
    have h' : (a + 1) + bs.length ≤ Config.memSize := by simp at h; omega
    simp only [Memory.place, Memory.write?, hlt, if_true, Option.getD_some, ih _ _ h', Memory.get_set]
    rcases Nat.lt_trichotomy x a with hx | rfl | hx
    · have h1 : ¬ a + 1 ≤ x := by omega
      have h2 : ¬ a ≤ x := by omega
      have h3 : x ≠ a := by omega
      simp [h1, h2, h3]
    · simp
    · have h1 : a + 1 ≤ x := by omega
      have h2 : a ≤ x := by omega
      have h3 : x ≠ a := by omega
      have h4 : x - a = (x - (a + 1)) + 1 := by omega
      simp [h1, h2, h3, h4]

end Sys2Proof.Machine
end

