-- ==== Sys2Proof/Laws/Operands.lean ====
section
/-! SUPPORT. What the shared operations do: operand checks, the stack, fetching. -/

namespace Sys2Proof.Machine

/-! ### Register operands -/

@[simp] theorem Reg.ofByte_toByte (r : Reg) : Reg.ofByte r.toByte = some r := by
  cases r <;> rfl

/-- A byte either names a register or is above 7 (R17, R58). -/
theorem Reg.byte_cases (b : Byte) : (∃ r : Reg, b = r.toByte) ∨ (7 < b.toNat ∧ Reg.ofByte b = none) := by
  have h : ∀ b : Byte, b = 0 ∨ b = 1 ∨ b = 2 ∨ b = 3 ∨ b = 4 ∨ b = 5 ∨ b = 6 ∨ b = 7 ∨
      (7 < b.toNat ∧ Reg.ofByte b = none) := by decide
  rcases h b with h | h | h | h | h | h | h | h | h
  · exact .inl ⟨.r0, h⟩
  · exact .inl ⟨.r1, h⟩
  · exact .inl ⟨.r2, h⟩
  · exact .inl ⟨.r3, h⟩
  · exact .inl ⟨.r4, h⟩
  · exact .inl ⟨.r5, h⟩
  · exact .inl ⟨.r6, h⟩
  · exact .inl ⟨.r7, h⟩
  · exact .inr h

theorem Reg.toByte_lt (r : Reg) : r.toByte.toNat < 8 := by
  cases r <;> decide

theorem Reg.ofByte_eq_none {b : Byte} (h : 7 < b.toNat) : Reg.ofByte b = none := by
  rcases Reg.byte_cases b with ⟨r, rfl⟩ | h'
  · have := r.toByte_lt; omega
  · exact h'.2

theorem Reg.toByte_injective {r q : Reg} (h : r.toByte = q.toByte) : r = q := by
  have := congrArg Reg.ofByte h
  simpa using this

/-- The fault of a register operand that names no register. -/
abbrev State.raiseReg (s : State) (opcode operand : Byte) : State :=
  s.raise .outOfBoundsRegister (some opcode) (addr9 operand)

@[simp] theorem withReg_toByte (op : Byte) (r : Reg) (s : State) (go : Reg → Host.Outcome State Fault Refusal) :
    withReg op r.toByte s go = go r := by
  simp [withReg]

theorem withReg_high (op : Byte) {b : Byte} (h : 7 < b.toNat) (s : State)
    (go : Reg → Host.Outcome State Fault Refusal) : withReg op b s go = .next (s.raiseReg op b) := by
  simp [withReg, Reg.ofByte_eq_none h]

@[simp] theorem withRegs_toByte (op : Byte) (a b : Reg) (s : State)
    (go : Reg → Reg → Host.Outcome State Fault Refusal) : withRegs op a.toByte b.toByte s go = go a b := by
  simp [withRegs]

theorem withRegs_high1 (op : Byte) {a : Byte} (b : Byte) (h : 7 < a.toNat) (s : State)
    (go : Reg → Reg → Host.Outcome State Fault Refusal) : withRegs op a b s go = .next (s.raiseReg op a) :=
  withReg_high op h s _

theorem withRegs_high2 (op : Byte) (a : Reg) {b : Byte} (h : 7 < b.toNat) (s : State)
    (go : Reg → Reg → Host.Outcome State Fault Refusal) :
    withRegs op a.toByte b s go = .next (s.raiseReg op b) := by
  simp [withRegs, withReg_high op h]

/-- Everything a one-register operand check can do. -/
theorem withReg_next {op b : Byte} {s t : State} {go : Reg → Host.Outcome State Fault Refusal}
    (h : withReg op b s go = .next t) :
    (∃ r : Reg, b = r.toByte ∧ go r = .next t) ∨ (7 < b.toNat ∧ t = s.raiseReg op b) := by
  rcases Reg.byte_cases b with ⟨r, rfl⟩ | ⟨hb, _⟩
  · exact .inl ⟨r, rfl, by simpa using h⟩
  · rw [withReg_high op hb] at h
    exact .inr ⟨hb, (Host.Outcome.next.inj h).symm⟩

/-- Everything a two-register operand check can do. -/
theorem withRegs_next {op a b : Byte} {s t : State} {go : Reg → Reg → Host.Outcome State Fault Refusal}
    (h : withRegs op a b s go = .next t) :
    (∃ r q : Reg, a = r.toByte ∧ b = q.toByte ∧ go r q = .next t) ∨
      (7 < a.toNat ∧ t = s.raiseReg op a) ∨ (a.toNat < 8 ∧ 7 < b.toNat ∧ t = s.raiseReg op b) := by
  rcases withReg_next (go := fun a => withReg op b s fun b => go a b) h with ⟨r, rfl, h'⟩ | h
  · rcases withReg_next (go := fun b => go r b) h' with ⟨q, rfl, h''⟩ | h
    · exact .inl ⟨r, q, rfl, rfl, h''⟩
    · exact .inr (.inr ⟨r.toByte_lt, h⟩)
  · exact .inr (.inl h)

/-! ### Widths and the stack pointer -/

@[simp] theorem addr9_toNat (b : Byte) : (addr9 b).toNat = b.toNat := by
  have := b.isLt
  simp only [addr9, BitVec.toNat_setWidth]
  omega

theorem wrap8_toNat (v : Int) : ((wrap8 v).toNat : Int) = v % 256 := by
  simp only [wrap8, BitVec.toNat_ofInt]
  omega

theorem State.pushAddr_toNat (s : State) : s.pushAddr.toNat = ((s.readReg .r7).toNat + 255) % 256 := by
  have := wrap8_toNat ((s.readReg .r7).toNat - 1)
  simp only [State.pushAddr, Reg.sp_eq]
  omega

theorem State.popSp_toNat (s : State) : s.popSp.toNat = ((s.readReg .r7).toNat + 1) % 256 := by
  have := wrap8_toNat ((s.readReg .r7).toNat + 1)
  simp only [State.popSp, Reg.sp_eq]
  omega

/-- A push: SP gets the address below, and the byte computed after that is stored there. -/
theorem State.pushWith_eq (s : State) (v : State → Byte) :
    s.pushWith v = (s.writeReg .r7 s.pushAddr).store s.pushAddr (v (s.writeReg .r7 s.pushAddr)) := by
  simp [State.pushWith]

@[simp] theorem State.pushWith_readReg (s : State) (v : State → Byte) (q : Reg) :
    (s.pushWith v).readReg q = if q = .r7 then s.pushAddr else s.readReg q := by
  simp [State.pushWith_eq]

@[simp] theorem State.pushWith_mem (s : State) (v : State → Byte) :
    (s.pushWith v).mem = s.mem.set s.pushAddr.toNat (v (s.writeReg .r7 s.pushAddr)) := by
  simp [State.pushWith_eq]

@[simp] theorem State.pushWith_pc (s : State) (v : State → Byte) : (s.pushWith v).pc = s.pc := rfl
@[simp] theorem State.pushWith_flags (s : State) (v : State → Byte) : (s.pushWith v).flags = s.flags := rfl
@[simp] theorem State.pushWith_status (s : State) (v : State → Byte) : (s.pushWith v).status = s.status := rfl
@[simp] theorem State.pushWith_out (s : State) (v : State → Byte) : (s.pushWith v).out = s.out := rfl

/-- `push_value` is a push whose byte does not depend on the state. -/
@[simp] theorem State.pushValue_eq (s : State) (v : Byte) : s.pushValue v = s.pushWith fun _ => v := rfl

@[simp] theorem State.jumpIf_mem (s : State) (c : Bool) (r : Reg) : (s.jumpIf c r).mem = s.mem := by cases c <;> rfl
@[simp] theorem State.jumpIf_regs (s : State) (c : Bool) (r : Reg) : (s.jumpIf c r).regs = s.regs := by cases c <;> rfl
@[simp] theorem State.jumpIf_flags (s : State) (c : Bool) (r : Reg) : (s.jumpIf c r).flags = s.flags := by cases c <;> rfl
@[simp] theorem State.jumpIf_status (s : State) (c : Bool) (r : Reg) : (s.jumpIf c r).status = s.status := by
  cases c <;> rfl
@[simp] theorem State.jumpIf_out (s : State) (c : Bool) (r : Reg) : (s.jumpIf c r).out = s.out := by cases c <;> rfl
@[simp] theorem State.jumpIf_readReg (s : State) (c : Bool) (r q : Reg) : (s.jumpIf c r).readReg q = s.readReg q := by
  cases c <;> rfl
@[simp] theorem State.jumpIf_true (s : State) (r : Reg) : s.jumpIf true r = s.jump (s.readReg r) := rfl
@[simp] theorem State.jumpIf_false (s : State) (r : Reg) : s.jumpIf false r = s.advance 2 := rfl

/-! ### The flags -/

/-- Exactly one of E, L and G is 1. -/
theorem compareFlags_cases (u v : Byte) :
    (u.toNat = v.toNat ∧ compareFlags u v = { E := true, L := false, G := false }) ∨
      (u.toNat < v.toNat ∧ compareFlags u v = { E := false, L := true, G := false }) ∨
      (v.toNat < u.toNat ∧ compareFlags u v = { E := false, L := false, G := true }) := by
  rcases Nat.lt_trichotomy u.toNat v.toNat with h | h | h
  · have h1 : ¬ u.toNat = v.toNat := by omega
    have h2 : ¬ v.toNat < u.toNat := by omega
    exact .inr (.inl ⟨h, by simp [compareFlags, h, h1, h2]⟩)
  · exact .inl ⟨h, by simp [compareFlags, h]⟩
  · have h1 : ¬ u.toNat = v.toNat := by omega
    have h2 : ¬ u.toNat < v.toNat := by omega
    exact .inr (.inr ⟨h, by simp [compareFlags, h, h1, h2]⟩)

/-! ### Fetching -/

theorem Memory.read?_in (m : Memory) {a : Nat} (h : a ≤ 255) : m.read? a = some (m.get a) := by
  have h' : a < Config.memSize := by simp only [Config.memSize]; omega
  simp [Memory.read?, h']

theorem Memory.read?_out (m : Memory) {a : Nat} (h : 255 < a) : m.read? a = none := by
  have h' : ¬ a < Config.memSize := by simp only [Config.memSize]; omega
  simp [Memory.read?, h']

/-- The bytes a fetch sees, by where the program counter stands. -/
theorem State.fetchBytes_cases (s : State) :
    (255 < s.pc.toNat ∧ s.fetchBytes = []) ∨
    (s.pc.toNat = 255 ∧ s.fetchBytes = [s.mem.get 255]) ∨
    (s.pc.toNat = 254 ∧ s.fetchBytes = [s.mem.get 254, s.mem.get 255]) ∨
    (s.pc.toNat ≤ 253 ∧ s.fetchBytes =
      [s.mem.get s.pc.toNat, s.mem.get (s.pc.toNat + 1), s.mem.get (s.pc.toNat + 2)]) := by
  unfold State.fetchBytes
  rcases Nat.lt_or_ge 255 s.pc.toNat with h | h
  · refine .inl ⟨h, ?_⟩
    simp [Memory.read?_out _ h, Memory.read?_out s.mem (show 255 < s.pc.toNat + 1 by omega),
      Memory.read?_out s.mem (show 255 < s.pc.toNat + 2 by omega)]
  · rcases Nat.lt_or_ge 253 s.pc.toNat with h' | h'
    · rcases (show s.pc.toNat = 254 ∨ s.pc.toNat = 255 by omega) with e | e
      · exact .inr (.inr (.inl ⟨e, by simp [e, Memory.read?, Config.memSize]⟩))
      · exact .inr (.inl ⟨e, by simp [e, Memory.read?, Config.memSize]⟩)
    · refine .inr (.inr (.inr ⟨h', ?_⟩))
      simp [Memory.read?_in _ h, Memory.read?_in s.mem (show s.pc.toNat + 1 ≤ 255 by omega),
        Memory.read?_in s.mem (show s.pc.toNat + 2 ≤ 255 by omega)]

end Sys2Proof.Machine
end

