-- ==== Sys2Proof/Laws/Exec.lean ====
section
/-! SUPPORT. Everything an instruction, and a step, can do: the relation `Effect` lists it once, and later proofs take it
apart by cases instead of unfolding the meanings. -/

namespace Sys2Proof.Machine

/-- What executing an instruction on `s` can lead to, one constructor per instruction, and the faults. -/
inductive Effect (s : State) : Instr → State → Prop where
  | hlt : Effect s .hlt s.halt
  | ldi (r : Reg) (i : Byte) : Effect s (.ldi r.toByte i) ((s.writeReg r i).advance 3)
  | prn (r : Reg) : Effect s (.prn r.toByte) ((s.emit (s.readReg r)).advance 2)
  | add (a b : Reg) : Effect s (.add a.toByte b.toByte)
      ((s.writeReg a (wrap8 (((s.readReg a).toNat : Int) + (s.readReg b).toNat))).advance 3)
  | sub (a b : Reg) : Effect s (.sub a.toByte b.toByte)
      ((s.writeReg a (wrap8 (((s.readReg a).toNat : Int) - (s.readReg b).toNat))).advance 3)
  | mul (a b : Reg) : Effect s (.mul a.toByte b.toByte)
      ((s.writeReg a (wrap8 (((s.readReg a).toNat : Int) * (s.readReg b).toNat))).advance 3)
  | push (r : Reg) : Effect s (.push r.toByte) ((s.pushWith fun s' => s'.readReg r).advance 2)
  | pop (r : Reg) : Effect s (.pop r.toByte)
      (((s.writeReg r (s.load (s.readReg .r7))).writeReg .r7
        (s.writeReg r (s.load (s.readReg .r7))).popSp).advance 2)
  | call (r : Reg) (h : s.pc.toNat + 2 ≤ 255) : Effect s (.call r.toByte)
      ((s.pushValue (BitVec.ofNat 8 (s.pc.toNat + 2))).jump
        ((s.pushValue (BitVec.ofNat 8 (s.pc.toNat + 2))).readReg r))
  | callFault (r : Reg) (h : 255 < s.pc.toNat + 2) : Effect s (.call r.toByte)
      (s.raise .outOfBoundsMemory (some 0x50) (BitVec.ofNat 9 (s.pc.toNat + 2)))
  | ret : Effect s .ret ((s.writeReg .r7 s.popSp).jump (s.load (s.readReg .r7)))
  | cmp (a b : Reg) : Effect s (.cmp a.toByte b.toByte)
      ((s.writeFlags (compareFlags (s.readReg a) (s.readReg b))).advance 3)
  | jmp (r : Reg) : Effect s (.jmp r.toByte) (s.jump (s.readReg r))
  | jeq (r : Reg) : Effect s (.jeq r.toByte) (s.jumpIf s.flags.E r)
  | jne (r : Reg) : Effect s (.jne r.toByte) (s.jumpIf (!s.flags.E) r)
  | registerFault (i : Instr) (b : Byte) (h : i.regOperands.find? (fun b => decide (7 < b.toNat)) = some b) :
      Effect s i (s.raiseReg (opcodeOf i) b)

/-- An instruction either halts, or takes a fault that changes nothing but the status, or leaves the status alone. -/
theorem Effect.status_cases {s t : State} {i : Instr} (h : Effect s i t) :
    (i = .hlt ∧ t = s.halt) ∨ (∃ b, i.regOperands.find? (fun b => decide (7 < b.toNat)) = some b ∧
        t = s.raiseReg (opcodeOf i) b) ∨
      (∃ r : Reg, i = .call r.toByte ∧ 255 < s.pc.toNat + 2 ∧
        t = s.raise .outOfBoundsMemory (some 0x50) (BitVec.ofNat 9 (s.pc.toNat + 2))) ∨
      (i ≠ .hlt ∧ t.status = s.status) := by
  cases h with
  | hlt => exact .inl ⟨rfl, rfl⟩
  | registerFault _ b h => exact .inr (.inl ⟨b, h, rfl⟩)
  | callFault r h => exact .inr (.inr (.inl ⟨r, rfl, h, rfl⟩))
  | _ => exact .inr (.inr (.inr ⟨by simp, by simp⟩))

/-- A one-register instruction, taken apart. -/
theorem effect_of_withReg {i : Instr} {b : Byte} {s t : State} {go : Reg → Host.Outcome State Fault Refusal}
    (hops : i.regOperands = [b]) (h : withReg (opcodeOf i) b s go = .next t)
    (hgo : ∀ r : Reg, b = r.toByte → go r = .next t → Effect s i t) : Effect s i t := by
  rcases withReg_next h with ⟨r, hr, h⟩ | ⟨hb, rfl⟩
  · exact hgo r hr h
  · exact .registerFault i b (by simp [hops, hb])

/-- A two-register instruction, taken apart. -/
theorem effect_of_withRegs {i : Instr} {a b : Byte} {s t : State} {go : Reg → Reg → Host.Outcome State Fault Refusal}
    (hops : i.regOperands = [a, b]) (h : withRegs (opcodeOf i) a b s go = .next t)
    (hgo : ∀ r q : Reg, a = r.toByte → b = q.toByte → go r q = .next t → Effect s i t) : Effect s i t := by
  rcases withRegs_next h with ⟨r, q, hr, hq, h⟩ | ⟨ha, rfl⟩ | ⟨ha, hb, rfl⟩
  · exact hgo r q hr hq h
  · exact .registerFault i a (by simp [hops, ha])
  · exact .registerFault i b (by simp [hops, hb, show ¬ 7 < a.toNat by omega])

/-- Everything `exec` can answer as a next state. -/
theorem exec_effect {i : Instr} {s t : State} (h : exec i s = .next t) : Effect s i t := by
  cases i with
  | hlt => cases h; exact .hlt
  | ldi r v =>
    refine effect_of_withReg rfl h ?_
    rintro r rfl h; cases h; exact .ldi r v
  | prn r =>
    refine effect_of_withReg rfl h ?_
    rintro r rfl h; cases h; exact .prn r
  | add a b =>
    refine effect_of_withRegs rfl h ?_
    rintro a b rfl rfl h; cases h; exact .add a b
  | sub a b =>
    refine effect_of_withRegs rfl h ?_
    rintro a b rfl rfl h; cases h; exact .sub a b
  | mul a b =>
    refine effect_of_withRegs rfl h ?_
    rintro a b rfl rfl h; cases h; exact .mul a b
  | push r =>
    refine effect_of_withReg rfl h ?_
    rintro r rfl h; cases h; exact .push r
  | pop r =>
    refine effect_of_withReg rfl h ?_
    rintro r rfl h; cases h; exact .pop r
  | call r =>
    refine effect_of_withReg rfl h ?_
    rintro r rfl h
    dsimp only at h
    split at h
    · cases h; exact .callFault r ‹_›
    · cases h; exact .call r (by omega)
  | ret => cases h; exact .ret
  | cmp a b =>
    refine effect_of_withRegs rfl h ?_
    rintro a b rfl rfl h; cases h; exact .cmp a b
  | jmp r =>
    refine effect_of_withReg rfl h ?_
    rintro r rfl h; cases h; exact .jmp r
  | jeq r =>
    refine effect_of_withReg rfl h ?_
    rintro r rfl h; cases h; exact .jeq r
  | jne r =>
    refine effect_of_withReg rfl h ?_
    rintro r rfl h; cases h; exact .jne r

/-- `exec` always answers a next state. -/
theorem exec_total (i : Instr) (s : State) : ∃ t, exec i s = .next t := by
  have one (op b : Byte) (go : Reg → Host.Outcome State Fault Refusal) (hgo : ∀ r, ∃ t, go r = .next t) :
      ∃ t, withReg op b s go = .next t := by
    rcases Reg.byte_cases b with ⟨r, rfl⟩ | ⟨hb, _⟩
    · simpa using hgo r
    · exact ⟨_, withReg_high op hb s go⟩
  have two (op a b : Byte) (go : Reg → Reg → Host.Outcome State Fault Refusal) (hgo : ∀ r q, ∃ t, go r q = .next t) :
      ∃ t, withRegs op a b s go = .next t :=
    one op a _ fun r => one op b _ fun q => hgo r q
  cases i with
  | hlt => exact ⟨_, rfl⟩
  | ldi r v => exact one _ _ _ fun _ => ⟨_, rfl⟩
  | prn r => exact one _ _ _ fun _ => ⟨_, rfl⟩
  | add a b => exact two _ _ _ _ fun _ _ => ⟨_, rfl⟩
  | sub a b => exact two _ _ _ _ fun _ _ => ⟨_, rfl⟩
  | mul a b => exact two _ _ _ _ fun _ _ => ⟨_, rfl⟩
  | push r => exact one _ _ _ fun _ => ⟨_, rfl⟩
  | pop r => exact one _ _ _ fun _ => ⟨_, rfl⟩
  | call r =>
    refine one _ _ _ fun q => ?_
    dsimp only
    split <;> exact ⟨_, rfl⟩
  | ret => exact ⟨_, rfl⟩
  | cmp a b => exact two _ _ _ _ fun _ _ => ⟨_, rfl⟩
  | jmp r => exact one _ _ _ fun _ => ⟨_, rfl⟩
  | jeq r => exact one _ _ _ fun _ => ⟨_, rfl⟩
  | jne r => exact one _ _ _ fun _ => ⟨_, rfl⟩

/-- Everything `step` can answer as a next state: the machine is RUNNING, and either the fetch takes a fault or the fetched
instruction is executed. -/
theorem step_next {s t : State} (h : step s = .next t) :
    s.status = .running ∧
      ((∃ e, s.fetch = .error e ∧ t = s.raiseFetch e) ∨ (∃ i, s.fetch = .ok i ∧ exec i s = .next t)) := by
  unfold step at h
  cases hs : s.status with
  | running =>
    refine ⟨rfl, ?_⟩
    simp only [State.stopped, hs] at h
    split at h
    · next e he => exact .inl ⟨e, he, (Host.Outcome.next.inj h).symm⟩
    · next i hi => exact .inr ⟨i, hi, h⟩
  | halted => simp [State.stopped, hs] at h
  | faulted r => simp [State.stopped, hs] at h

/-- A RUNNING step whose fetch gives an instruction executes it. -/
theorem step_of_fetch_ok {s : State} {i : Instr} (hs : s.status = .running) (h : s.fetch = .ok i) :
    step s = exec i s := by
  simp [step, State.stopped, hs, h]

/-- A RUNNING step whose fetch fails takes the fault of that failure. -/
theorem step_of_fetch_error {s : State} {e : DecodeError} (hs : s.status = .running) (h : s.fetch = .error e) :
    step s = .next (s.raiseFetch e) := by
  simp [step, State.stopped, hs, h]

end Sys2Proof.Machine
end

