-- ==== Sys2Proof/Laws/Host.lean ====
section
/-! SUPPORT. What the host's load and boot can answer: nothing for an image that does not fit, one state for any other. -/

namespace Sys2Proof.Machine

/-- The images the loader accepts (R129, R131). -/
theorem loaderAccepts_eq_some {values : List Nat} {image : List Byte} :
    loaderAccepts values = some image ↔
      (values.length ≤ 256 ∧ ∀ v ∈ values, v ≤ 255) ∧ image = values.map (BitVec.ofNat 8) := by
  unfold loaderAccepts
  split
  · exact ⟨fun h => ⟨‹_›, (Option.some.inj h).symm⟩, fun h => by rw [h.2]⟩
  · exact ⟨nofun, fun h => absurd h.1 ‹_›⟩

/-- A load answers a state exactly for an accepted image, and the bytes then stand from address 0 (R129). -/
theorem loadImage_eq_some {values : List Nat} {s t : State} :
    loadImage values s = some t ↔
      (values.length ≤ 256 ∧ ∀ v ∈ values, v ≤ 255) ∧
        t = { s with mem := s.mem.place 0 (values.map (BitVec.ofNat 8)) } := by
  simp only [loadImage, Option.map_eq_some_iff, loaderAccepts_eq_some]
  exact ⟨fun ⟨_, ⟨h, hi⟩, ht⟩ => ⟨h, by rw [← ht, hi]⟩, fun ⟨h, ht⟩ => ⟨_, ⟨h, rfl⟩, ht.symm⟩⟩

/-- A boot answers a state exactly for an accepted image, and that state is the reset state over the loaded memory (R126). -/
theorem boot_eq_some {values : List Nat} {s t : State} :
    boot values s = some t ↔
      (values.length ≤ 256 ∧ ∀ v ∈ values, v ≤ 255) ∧
        t = hostReset values.isEmpty { s with mem := s.mem.place 0 (values.map (BitVec.ofNat 8)) } := by
  simp only [boot, Option.map_eq_some_iff, loadImage_eq_some]
  exact ⟨fun ⟨_, ⟨h, hl⟩, ht⟩ => ⟨h, by rw [← ht, hl]⟩, fun ⟨h, ht⟩ => ⟨_, ⟨h, rfl⟩, ht.symm⟩⟩

/-- A load keeps the canonical form of memory. -/
theorem loadImage_wf {values : List Nat} {s t : State} (hm : s.mem.wf) (h : loadImage values s = some t) : t.mem.wf := by
  rw [(loadImage_eq_some.mp h).2]
  exact Memory.place_wf _ hm 0

/-- A boot keeps the canonical form of memory. -/
theorem boot_wf {values : List Nat} {s t : State} (hm : s.mem.wf) (h : boot values s = some t) : t.mem.wf := by
  rw [(boot_eq_some.mp h).2]
  exact Memory.place_wf _ hm 0

end Sys2Proof.Machine
end

