-- ==== Sys2Proof/Tests/Slice0.lean ====
section
/-! SUPPORT. The model's own tests. Expected values are those of 95_test_vectors.md (V<n>, P<n>, S<n>) or of the rule named;
every machine test is one step. The last section shows, for each statement with hypotheses, values that meet them. -/

namespace Sys2Proof.Tests

open Sys2Proof.Machine

/-- A RUNNING machine with the image loaded, all else as after reset. -/
def started (image : List Byte) : State := (boot (image.map BitVec.toNat) State.reset).getD State.reset

/-- The answer is a next state of which `p` holds. -/
def onNext (o : Host.Outcome State Fault Refusal) (p : State → Bool) : Bool :=
  match o with
  | .next t => p t
  | .fault _ => false
  | .refused _ => false

/-! ### Well-formedness: an ill-formed term for each check -/

theorem test_wellFormed_accepts_registers :
    (Instr.ldi 7 0xFF).wellFormed = true ∧ (Instr.cmp 0 7).wellFormed = true ∧ Instr.hlt.wellFormed = true := by decide

theorem test_wellFormed_refuses_op1 :
    (Instr.ldi 8 0).wellFormed = false ∧ (Instr.prn 8).wellFormed = false ∧ (Instr.add 8 0).wellFormed = false ∧
    (Instr.sub 8 0).wellFormed = false ∧ (Instr.mul 8 0).wellFormed = false ∧ (Instr.push 8).wellFormed = false ∧
    (Instr.pop 0xFF).wellFormed = false ∧ (Instr.call 8).wellFormed = false ∧ (Instr.cmp 8 0).wellFormed = false ∧
    (Instr.jmp 8).wellFormed = false ∧ (Instr.jeq 8).wellFormed = false ∧ (Instr.jne 8).wellFormed = false := by decide

theorem test_wellFormed_refuses_op2 :
    (Instr.add 0 8).wellFormed = false ∧ (Instr.sub 0 8).wellFormed = false ∧
    (Instr.mul 0 8).wellFormed = false ∧ (Instr.cmp 0 8).wellFormed = false := by decide

/-! ### Decoding: words written out from the table of R57 -/

theorem test_decode_hlt : decode [0b00000001] = .ok (.hlt, []) := rfl
theorem test_decode_ldi : decode [0b10000010, 0b00000011, 0b11111111] = .ok (.ldi 3 255, []) := rfl
theorem test_decode_prn : decode [0b01000111, 0b00000111] = .ok (.prn 7, []) := rfl
theorem test_decode_add : decode [0b10100000, 0b00000001, 0b00000010] = .ok (.add 1 2, []) := rfl
theorem test_decode_sub : decode [0b10100001, 0b00000001, 0b00000010] = .ok (.sub 1 2, []) := rfl
theorem test_decode_mul : decode [0b10100010, 0b00000001, 0b00000010] = .ok (.mul 1 2, []) := rfl
theorem test_decode_push : decode [0b01000101, 0b00000110] = .ok (.push 6, []) := rfl
theorem test_decode_pop : decode [0b01000110, 0b00000101] = .ok (.pop 5, []) := rfl
theorem test_decode_call : decode [0b01010000, 0b00000100] = .ok (.call 4, []) := rfl
theorem test_decode_ret : decode [0b00010001, 0b10000010] = .ok (.ret, [0x82]) := rfl
theorem test_decode_cmp : decode [0b10100111, 0b00000001, 0b00000010] = .ok (.cmp 1 2, []) := rfl
theorem test_decode_jmp : decode [0b01010100, 0b00000011] = .ok (.jmp 3, []) := rfl
theorem test_decode_jeq : decode [0b01010101, 0b00000011] = .ok (.jeq 3, []) := rfl
theorem test_decode_jne : decode [0b01010110, 0b00000011] = .ok (.jne 3, []) := rfl

/-- V61, V62, V63: bytes outside the map, those that fit the field pattern of R63 among them. -/
theorem test_decode_unknown :
    decode [0x00, 0, 0] = .error (.unknownOpcode 0x00) ∧ decode [0b10100011, 0, 0] = .error (.unknownOpcode 0xA3) ∧
    decode [0b01010111, 0] = .error (.unknownOpcode 0x57) ∧ decode [] = .error .noOpcode ∧
    decode [0x82, 5] = .error (.missingOperand 0x82 2) ∧ decode [0x47] = .error (.missingOperand 0x47 1) :=
  ⟨rfl, rfl, rfl, rfl, rfl, rfl⟩

/-- The table numbers the first byte's bits lowest; bits above `nbits` are 0. -/
theorem test_decodeTableWord :
    decodeTableWord 24 0x080382 = some (.ldi 3 8) ∧ decodeTableWord 8 0x080382 = some (.ldi 0 0) ∧
    decodeTableWord 16 0x0647 = some (.prn 6) ∧ decodeTableWord 8 0x11 = some .ret ∧
    decodeTableWord 8 0x00 = none := by decide

theorem test_withFetchWord_runs_after_reset :
    onNext (step (State.reset.withFetchWord 24 0x2A0382)) (fun t => t.regs.r3 == 0x2A && t.pc == 3) = true := by decide

/-! ### One step of each instruction -/

/-- V1. -/
theorem test_hlt : onNext (step (started [0x01])) (fun t => t.status == .halted && t.pc == 0) = true := by decide

/-- V3: LDI R7 moves SP. -/
theorem test_ldi_sp : onNext (step (started [0x82, 0x07, 0x10])) (fun t => t.regs.r7 == 0x10 && t.pc == 3) = true := by
  decide

/-- V4: the register check, nothing written. -/
theorem test_ldi_bad_register : onNext (step (started [0x82, 0x08, 0x05]))
    (fun t => t.status == .faulted ⟨.outOfBoundsRegister, 0, some 0x82, 8⟩ && t.regs == RegFile.reset && t.pc == 0) =
    true := by decide

/-- V10: PRN R7 after reset. -/
theorem test_prn : onNext (step (started [0x47, 0x07])) (fun t => t.out == [244] && t.pc == 2) = true := by decide

/-- V14 and V25: ADD wraps, and with one register as both operands. -/
theorem test_add : onNext (exec (.add 0 1) ((started [0]).writeReg .r0 200 |>.writeReg .r1 100))
    (fun t => t.regs.r0 == 44 && t.regs.r1 == 100 && t.pc == 3) = true ∧
    onNext (exec (.add 0 0) ((started [0]).writeReg .r0 0x81)) (fun t => t.regs.r0 == 0x02) = true := by decide

/-- V30: op1 is reported first. -/
theorem test_add_bad_registers : onNext (step (started [0xA0, 0x0A, 0x09]))
    (fun t => t.status == .faulted ⟨.outOfBoundsRegister, 0, some 0xA0, 10⟩) = true := by decide

/-- V18 and V16: SUB borrows, and the order of the operands. -/
theorem test_sub : onNext (exec (.sub 0 1) ((started [0]).writeReg .r0 5 |>.writeReg .r1 7)) (fun t => t.regs.r0 == 254) = true ∧
    onNext (exec (.sub 0 1) ((started [0]).writeReg .r0 3 |>.writeReg .r1 1)) (fun t => t.regs.r0 == 2) = true := by decide

/-- V20, V23: MUL keeps the low byte. -/
theorem test_mul : onNext (exec (.mul 0 1) ((started [0]).writeReg .r0 8 |>.writeReg .r1 9)) (fun t => t.regs.r0 == 72) = true ∧
    onNext (exec (.mul 0 1) ((started [0]).writeReg .r0 255 |>.writeReg .r1 255)) (fun t => t.regs.r0 == 1) = true := by
  decide

/-- V33: PUSH R7 writes the decremented SP. -/
theorem test_push_sp : onNext (step (started [0x45, 0x07]))
    (fun t => t.regs.r7 == 0xF3 && t.mem.get 0xF3 == 0xF3 && t.pc == 2) = true := by decide

/-- V35: a push with SP = 0 wraps to 255. -/
theorem test_push_wraps : onNext (exec (.push 0) ((started [0]).writeReg .r7 0 |>.writeReg .r0 0x77))
    (fun t => t.regs.r7 == 0xFF && t.mem.get 0xFF == 0x77) = true := by decide

/-- The second half of V34: POP R7 loads and then increments. -/
theorem test_pop_sp : onNext (exec (.pop 7) ((started [0]).store 0xF3 0xF3 |>.writeReg .r7 0xF3))
    (fun t => t.regs.r7 == 0xF4 && t.pc == 2) = true := by decide

/-- V36: a pop with SP = 255 wraps to 0. -/
theorem test_pop_wraps : onNext (exec (.pop 0) ((started [0]).store 0xFF 0x12 |>.writeReg .r7 0xFF))
    (fun t => t.regs.r0 == 0x12 && t.regs.r7 == 0) = true := by decide

/-- V42: CALL R7 jumps to the decremented SP. -/
theorem test_call_sp : onNext (step (started [0x50, 0x07]))
    (fun t => t.regs.r7 == 0xF3 && t.mem.get 0xF3 == 2 && t.pc == 0xF3) = true := by decide

/-- V43: CALL at 254 faults before any write. -/
theorem test_call_at_254 : onNext (step { (started [0]).store 0xFE 0x50 |>.store 0xFF 1 with pc := 0xFE })
    (fun t => t.status == .faulted ⟨.outOfBoundsMemory, 0xFE, some 0x50, 256⟩ && t.regs.r7 == 0xF4 && t.pc == 0xFE) =
    true := by decide

/-- The RET of V41. -/
theorem test_ret : onNext (exec .ret ((started [0]).store 0xF3 5 |>.writeReg .r7 0xF3))
    (fun t => t.pc == 5 && t.regs.r7 == 0xF4) = true := by decide

/-- V51: the comparison is unsigned. -/
theorem test_cmp_unsigned : onNext (exec (.cmp 0 1) ((started [0]).writeReg .r0 0x80 |>.writeReg .r1 0x7F))
    (fun t => t.flags == ⟨false, false, true⟩ && t.pc == 3) = true := by decide

/-- V52: a register equals itself. -/
theorem test_cmp_self : onNext (step (started [0xA7, 0x03, 0x03])) (fun t => t.flags == ⟨true, false, false⟩) = true := by
  decide

/-- The JMP of V53. -/
theorem test_jmp : onNext (exec (.jmp 3) ((started [0]).writeReg .r3 6)) (fun t => t.pc == 6) = true := by decide

/-- V54, V58: JEQ after reset is not taken, and its operand is checked all the same. -/
theorem test_jeq : onNext (step (started [0x55, 0x01])) (fun t => t.pc == 2) = true ∧
    onNext (step (started [0x55, 0x09])) (fun t => t.status == .faulted ⟨.outOfBoundsRegister, 0, some 0x55, 9⟩) = true := by
  decide

/-- The JNE of V55, taken after reset. -/
theorem test_jne : onNext (exec (.jne 1) ((started [0]).writeReg .r1 7)) (fun t => t.pc == 7) = true := by decide

/-! ### Faults of the fetch, and stops -/

/-- V6 and V65, the second step: a fetch at 256. -/
theorem test_fetch_at_256 : onNext (step { started [0] with pc := 256 })
    (fun t => t.status == .faulted ⟨.outOfBoundsMemory, 256, none, 256⟩) = true := by decide

/-- V7: op2 at 256 faults before the register check of op1. -/
theorem test_ldi_at_254 : onNext (step { (started [0]).store 0xFE 0x82 |>.store 0xFF 9 with pc := 0xFE })
    (fun t => t.status == .faulted ⟨.outOfBoundsMemory, 0xFE, some 0x82, 256⟩) = true := by decide

/-- V66: op1 at 256. -/
theorem test_prn_at_255 : onNext (step { (started [0]).store 0xFF 0x47 with pc := 0xFF })
    (fun t => t.status == .faulted ⟨.outOfBoundsMemory, 0xFF, some 0x47, 256⟩ && t.out == []) = true := by decide

/-- V61. -/
theorem test_unknown_opcode : onNext (step (started [0x00]))
    (fun t => t.status == .faulted ⟨.unknownOpcode, 0, some 0, 0⟩ && t.pc == 0) = true := by decide

/-- V67: the empty image is halted at reset, with no output. -/
theorem test_empty_image : (started []).status = .halted ∧ (started []).out = [] ∧
    (started []).statusPorts.faultCode = 0 := by decide

/-- P5: the PUSH of the self-modifying program puts HLT where the next instruction stands. -/
theorem test_self_modifying : onNext (step { (started [0x82, 7, 9, 0x82, 0, 1, 0x45, 0, 0x47, 0, 1]).writeReg .r7 9
      |>.writeReg .r0 1 with pc := 6 }) (fun t => t.mem.get 8 == 1 && t.pc == 8 && t.fetchBytes.head? == some 1) = true := by
  decide

/-- R129, R131: an image that fits is loaded and started; one with a value above 255 or with 257 bytes is refused, and there is
no run. -/
theorem test_loader : loaderAccepts [0x82, 0, 8] = some [0x82, 0, 8] ∧ boot [256] State.reset = none ∧
    boot (List.replicate 257 0) State.reset = none :=
  ⟨by decide, by decide, Option.eq_none_iff_forall_ne_some.mpr fun _ h =>
    absurd (boot_eq_some.mp h).1.1 (by rw [List.length_replicate]; decide)⟩

/-- Memory stays canonical data: writing the byte an unlisted address reads as removes the entry. -/
theorem test_memory_canonical : ((started []).mem.set 9 5).set 3 7 = ⟨[(3, 7), (9, 5)]⟩ ∧
    (((started []).mem.set 9 5).set 3 7).set 9 0 = ⟨[(3, 7)]⟩ := by decide

/-! ### Values that meet the hypotheses of each statement -/

theorem test_witness_IndexBytesNameRegisters : 7 < (8 : Byte).toNat ∧ 7 < (255 : Byte).toNat := by decide

theorem test_witness_StepRunsDecodedInstruction :
    (started [0x47, 3]).status = .running ∧ decode (started [0x47, 3]).fetchBytes = .ok (.prn 3, [0]) :=
  ⟨rfl, rfl⟩

theorem test_witness_StepRunsEncodedInstructionAtPc :
    (started [0x47, 3]).status = .running ∧ (started [0x47, 3]).HoldsAtPc (encode (.prn 3)) :=
  ⟨rfl, by unfold State.HoldsAtPc; decide⟩

theorem test_witness_FetchSeesEarlierWrites :
    (254 : Addr9).toNat + (encode (.call 1)).length ≤ 256 ∧ ({ started [0] with pc := 255 } : State).pc = (255 : Byte).setWidth 9 := by
  decide

theorem test_witness_StepExistsExactlyWhenRunning :
    (started [1]).status = .running ∧ State.reset.status = .halted ∧
    ((started [1]).raise .unknownOpcode (some 0) 0).status = .faulted ⟨.unknownOpcode, 0, some 0, 0⟩ := by decide

theorem test_witness_RunGoesOnExactlyWhileRunning :
    runSteps 1 (started [1]) = .next (started [1]).halt ∧ runSteps 0 (started [1]) = .next (started [1]) := ⟨rfl, rfl⟩

theorem test_witness_OpcodeFetchReadsPcOrFaults :
    ({ started [1] with pc := 255 } : State).pc.toNat ≤ 255 ∧ ({ started [1] with pc := 256 } : State).status = .running ∧
    ({ started [1] with pc := 256 } : State).pc = 256 := by decide

theorem test_witness_OperandFetchPastMemoryFaults :
    ({ (started [1]).store 255 0x82 with pc := 255 } : State).status = .running ∧
    ((started [1]).store 255 0x82).mem.get 255 ∈
      ([0x82, 0x47, 0xA0, 0xA1, 0xA2, 0x45, 0x46, 0x50, 0xA7, 0x54, 0x55, 0x56] : List Byte) ∧
    ((started [1]).store 254 0xA7).mem.get 254 ∈ ([0x82, 0xA0, 0xA1, 0xA2, 0xA7] : List Byte) := by decide

theorem test_witness_UnknownOpcodeFaults :
    ({ started [1] with pc := 255 } : State).status = .running ∧ (started [1]).mem.get 255 ∉ opcodeBytes ∧
    step { started [1] with pc := 255 } = .next (({ started [1] with pc := 255 } : State).raise .unknownOpcode (some 0) 0) :=
  ⟨rfl, by decide, rfl⟩

theorem test_witness_RegisterOperandOutOfRangeFaults :
    (Instr.add 8 9).regOperands.find? (fun b => decide (7 < b.toNat)) = some 8 ∧
    (Instr.add 7 255).regOperands.find? (fun b => decide (7 < b.toNat)) = some 255 := by decide

theorem test_witness_FirstFaultInPriorityOrder : (started [0xA0, 10, 9]).status = .running ∧
    firstFault (started [0xA0, 10, 9]) = some ⟨.outOfBoundsRegister, 0, some 0xA0, 10⟩ ∧
    (started [1]).status = .running ∧ firstFault (started [1]) = none := by decide

/-- Serves FaultChangesOnlyStatus and UnsupportedAluOperationNeverTaken: a step that takes a fault. -/
theorem test_witness_FaultChangesOnlyStatus :
    step (started [0]) = .next ((started [0]).raise .unknownOpcode (some 0) 0) ∧
    ((started [0]).raise .unknownOpcode (some 0) 0).status = .faulted ⟨.unknownOpcode, 0, some 0, 0⟩ := ⟨rfl, rfl⟩

theorem test_witness_WellFormedInstructionCompletes :
    (Instr.call 7).wellFormed = true ∧ ({ started [1] with pc := 253 } : State).pc.toNat + 2 ≤ 255 := by decide

theorem test_witness_LdiLoadsImmediate : 7 < (8 : Byte).toNat ∧
    ({ (started [1]).store 254 0x82 with pc := 254 } : State).mem.get 254 = 0x82 ∧
    ({ (started [1]).store 255 0x82 with pc := 255 } : State).mem.get 255 = 0x82 ∧
    ({ (started [1]).store 255 0x82 with pc := 255 } : State).status = .running := by decide

theorem test_witness_PrnEmitsRegister : 7 < (8 : Byte).toNat ∧
    ({ (started [1]).store 255 0x47 with pc := 255 } : State).mem.get 255 = 0x47 ∧
    ({ (started [1]).store 255 0x47 with pc := 255 } : State).status = .running := by decide

theorem test_witness_JmpSetsPcFromRegister : 7 < (255 : Byte).toNat ∧
    ({ (started [1]).store 255 0x54 with pc := 255 } : State).mem.get 255 = 0x54 ∧
    ({ (started [1]).store 255 0x54 with pc := 255 } : State).status = .running := by decide

theorem test_witness_CallPushesReturnAddressAndJumps : ({ started [1] with pc := 253 } : State).pc.toNat ≤ 253 := by decide

theorem test_witness_CallAtAddress254Faults : ({ started [1] with pc := 254 } : State).pc = 254 := rfl

theorem test_witness_OnlyCmpWritesFlags :
    exec (.jmp 0) (started [0]) = .next ((started [0]).jump 0) ∧ (∀ a b, Instr.jmp 0 ≠ .cmp a b) ∧
    step (started [1]) = .next (started [1]).halt ∧ (started [1]).mem.get (started [1]).pc.toNat ≠ 0xA7 :=
  ⟨rfl, by simp, rfl, by decide⟩

/-- Both ways of meeting the hypothesis: the same E with another L, and an instruction that reads no flag. -/
theorem test_witness_OnlyJumpsReadFlagsAndOnlyE :
    (⟨false, true, false⟩ : Flags).E = (started [1]).flags.E ∧ exec (.jeq 0) (started [1]) = .next ((started [1]).advance 2) ∧
    (∀ r, Instr.hlt ≠ .jeq r ∧ Instr.hlt ≠ .jne r) ∧ exec .hlt (started [1]) = .next (started [1]).halt :=
  ⟨rfl, rfl, by simp, rfl⟩

theorem test_witness_RegistersReadAndWrittenAsTabled :
    exec (.jeq 2) (started [1]) = .next ((started [1]).advance 2) ∧ Reg.r2 ∉ readsOf (started [1]).flags.E (.jeq 2) ∧
    step (started [0x82, 0, 8]) = .next (((started [0x82, 0, 8]).writeReg .r0 8).advance 3) ∧
    (((started [0x82, 0, 8]).writeReg .r0 8).advance 3).regs ≠ (started [0x82, 0, 8]).regs :=
  ⟨rfl, by decide, rfl, by decide⟩

/-- Serves OnlyPushAndCallWriteMemory, OutputGrowsOnlyByPrn and ResetInputAbandonsStepAndKeepsMemory's second part: steps exist. -/
theorem test_witness_OnlyPushAndCallWriteMemory :
    step (started [0x45, 0]) = .next (((started [0x45, 0]).pushValue 0).advance 2) ∧
    step (started [0x47, 0]) = .next (((started [0x47, 0]).emit 0).advance 2) := ⟨rfl, rfl⟩

theorem test_witness_OutputGrowsOnlyByPrn :
    step (started [0x47, 7]) = .next (((started [0x47, 7]).emit 0xF4).advance 2) ∧
    step (started [0x47, 8]) = .next ((started [0x47, 8]).raise .outOfBoundsRegister (some 0x47) 8) := ⟨rfl, rfl⟩

theorem test_witness_OnlyHltEntersHalted :
    step (started [1]) = .next (started [1]).halt ∧ (started [1]).halt.status = .halted := ⟨rfl, rfl⟩

theorem test_witness_PcReaches256OnlyByFallThrough :
    onNext (step { (started [0]).store 254 0x47 with pc := 254 }) (fun t => t.pc == 256) = true ∧
    onNext (step { (started [0]).store 253 0x82 with pc := 253 }) (fun t => t.pc == 256) = true ∧
    ({ (started [0]).store 254 0x47 with pc := 254 } : State).pc.toNat ≤ 255 := by decide

/-- Serves StepKeepsInvariant and RunKeepsInvariantAndOutput: a state that meets the invariant and steps. -/
theorem test_witness_StepKeepsInvariant : (started [1]).Inv ∧ step (started [1]) = .next (started [1]).halt ∧
    runSteps 1 (started [1]) = .next (started [1]).halt :=
  ⟨⟨by decide, by decide, .inl rfl, fun _ h => by cases h⟩, rfl, rfl⟩

/-- Serves BootMeetsInvariant, and BootKeepsMemTail for an image shorter than the memory. -/
theorem test_witness_BootMeetsInvariant : (started [1, 2, 3]).mem.wf ∧
    (boot [7] (started [1, 2, 3])).map (fun t => t.mem.cells) = some [(0, 7), (1, 2), (2, 3)] := by decide

theorem test_witness_MemReadAnswersOnlyInRange : (0 : Nat) ≤ 255 ∧ (255 : Nat) ≤ 255 ∧ (255 : Nat) < 256 := by decide

theorem test_witness_MemWriteSetsOneCell : (0 : Nat) ≤ 255 ∧ (255 : Nat) ≤ 255 ∧ (0 : Nat) ≠ 255 ∧ (255 : Nat) < 256 := by decide

theorem test_witness_EqualMemoriesAreEqualData : ((started [1]).mem.set 9 5).wf ∧ ((started [1]).mem.set 9 4 |>.set 9 5).wf ∧
    ∀ a, ((started [1]).mem.set 9 5).get a = ((started [1]).mem.set 9 4 |>.set 9 5).get a :=
  ⟨by decide, by decide, fun a => by simp only [Memory.get_set]; split <;> rfl⟩

theorem test_witness_PushThenPopRestores :
    exec (.push Reg.r7.toByte) (started [0]) = .next (((started [0]).pushValue 0xF3).advance 2) := rfl

theorem test_witness_CallThenRetResumes : (started [0]).pc.toNat ≤ 253 ∧
    exec (.call Reg.r1.toByte) (started [0]) = .next (((started [0]).pushValue 2).jump 0) := ⟨by decide, rfl⟩

theorem test_witness_BranchesFollowComparison :
    exec (.cmp Reg.r0.toByte Reg.r7.toByte) (started [0]) =
      .next (((started [0]).writeFlags ⟨false, true, false⟩).advance 3) ∧
    (started [0]).readReg .r0 = (started [0]).readReg .r1 ∧ (started [0]).readReg .r0 ≠ (started [0]).readReg .r7 :=
  ⟨rfl, rfl, by decide⟩

theorem test_witness_EmptyImageStartsHalted : ([1] : List Nat) ≠ [] ∧ boot [1] State.reset = some (started [1]) ∧
    exec .hlt (started [1]) = .next (started [1]).halt ∧
    (started [1]).status ≠ .halted ∧ (started [1]).halt.status = .halted := ⟨by simp, rfl, rfl, by decide, rfl⟩

/-- Serves ImageBytesLoadedInOrder and BootRefusesExactlyUnfitImages: 256 bytes fit, 257 do not; 255 fits, 256 does not. -/
theorem test_witness_ImageBytesLoadedInOrder :
    (List.replicate 256 255).length ≤ 256 ∧ (∀ v ∈ List.replicate 256 255, v ≤ 255) ∧ 255 < (List.replicate 256 255).length ∧
    256 < (List.replicate 257 0).length ∧ ∃ v ∈ ([256] : List Nat), 255 < v :=
  ⟨by rw [List.length_replicate], fun _ h => (List.eq_of_mem_replicate h).le, by rw [List.length_replicate]; decide,
    by rw [List.length_replicate]; decide, by decide⟩

theorem test_witness_BootRefusesExactlyUnfitImages : boot [1] State.reset = some (started [1]) ∧
    boot [] (started [1]) = some (hostReset true (started [1])) := ⟨rfl, rfl⟩

/-- A full image of 256 bytes and the empty one both boot. -/
theorem test_witness_BootKeepsMemTail : (∃ t, boot (List.replicate 256 255) State.reset = some t) ∧
    ∃ t, boot [] (started [1]) = some t :=
  ⟨⟨_, boot_eq_some.mpr ⟨⟨by rw [List.length_replicate], fun _ h => (List.eq_of_mem_replicate h).le⟩, rfl⟩⟩, _, rfl⟩

theorem test_witness_ResetInputAbandonsStepAndKeepsMemory :
    (⟨true, true, 0xFF, 7, false⟩ : HostInputs).rst = true ∧ (⟨false, true, 0xFF, 7, false⟩ : HostInputs).rst = false := by decide

theorem test_witness_StatusPortsShowStatusAndRecord :
    ((started [1]).raise .unknownOpcode (some 0) 0).status = .faulted ⟨.unknownOpcode, 0, some 0, 0⟩ ∧
    ((started [1]).raise .unsupportedALUOperation (some 0xA0) 0xA0).status =
      .faulted ⟨.unsupportedALUOperation, 0, some 0xA0, 0xA0⟩ ∧
    ((started [1]).raise .outOfBoundsMemory none 256).status = .faulted ⟨.outOfBoundsMemory, 0, none, 256⟩ ∧
    ((started [1]).raise .outOfBoundsRegister (some 0x47) 8).status = .faulted ⟨.outOfBoundsRegister, 0, some 0x47, 8⟩ := by
  decide

end Sys2Proof.Tests
end

/-! ## Proofs: the decoder and the fetch

What a successful and a failed decode say of the bytes, and what a fetch says of memory at the program counter. -/

namespace Sys2Proof

open Sys2Proof.Machine

/-- The row of the map for `opcode`: whatever operand bytes it is given, the instruction it makes is encoded as the
opcode followed by them. -/
def Shape.EncodesAs (opcode : Byte) : Shape → Prop
  | .f0 i => encode i = [opcode]
  | .f1 mk => ∀ op1, encode (mk op1) = [opcode, op1]
  | .f2 mk => ∀ op1 op2, encode (mk op1 op2) = [opcode, op1, op2]

theorem opcodeMap_encodesAs {opcode : Byte} {shape : Shape} (h : opcodeMap opcode = some shape) :
    shape.EncodesAs opcode := by
  unfold opcodeMap at h
  split at h <;> cases h <;> simp [Shape.EncodesAs, encode, opcodeOf, operandsOf]

theorem opcodeMap_eq_none_iff (opcode : Byte) : opcodeMap opcode = none ↔ opcode ∉ opcodeBytes := by
  have h : ∀ b : Byte, (opcodeMap b).isNone = true ↔ b ∉ opcodeBytes := by decide
  rw [← h, Option.isNone_iff_eq_none]

/-- A successful decode has read the encoding of its instruction (R55, R57). -/
theorem eq_encode_append_of_decode_ok {bytes rest : List Byte} {i : Instr} (h : decode bytes = .ok (i, rest)) :
    bytes = encode i ++ rest := by
  match bytes with
  | [] => cases h
  | opcode :: tail =>
    unfold decode at h
    cases hmap : opcodeMap opcode with
    | none => simp [hmap] at h
    | some shape =>
      have henc := opcodeMap_encodesAs hmap
      match shape, tail with
      | .f0 j, tail =>
        simp only [hmap] at h; cases h
        simp only [Shape.EncodesAs] at henc; simp [henc]
      | .f1 mk, [] => simp [hmap] at h
      | .f1 mk, op1 :: tail =>
        simp only [hmap] at h; cases h
        simp [henc op1]
      | .f2 mk, [] => simp [hmap] at h
      | .f2 mk, [_] => simp [hmap] at h
      | .f2 mk, op1 :: op2 :: tail =>
        simp only [hmap] at h; cases h
        simp [henc op1 op2]

/-- Why a decode failed: no byte, an opcode outside the map, or the first operand byte that is missing (R68 to R70). -/
theorem decode_error_cases {bytes : List Byte} {e : DecodeError} (h : decode bytes = .error e) :
    (bytes = [] ∧ e = .noOpcode) ∨
    ∃ opcode rest, bytes = opcode :: rest ∧
      ((opcode ∉ opcodeBytes ∧ e = .unknownOpcode opcode) ∨
        (opcode ∈ opcodeBytes ∧ rest.length ≤ 1 ∧ e = .missingOperand opcode (rest.length + 1))) := by
  match bytes with
  | [] => cases h; exact .inl ⟨rfl, rfl⟩
  | opcode :: rest =>
    refine .inr ⟨opcode, rest, rfl, ?_⟩
    unfold decode at h
    cases hmap : opcodeMap opcode with
    | none =>
      simp only [hmap] at h; cases h
      exact .inl ⟨(opcodeMap_eq_none_iff opcode).mp hmap, rfl⟩
    | some shape =>
      have hknown : opcode ∈ opcodeBytes := by
        by_contra hnot
        simp [(opcodeMap_eq_none_iff opcode).mpr hnot] at hmap
      refine .inr ⟨hknown, ?_⟩
      match shape, rest with
      | .f0 _, _ => simp [hmap] at h
      | .f1 _, [] => simp only [hmap] at h; cases h; simp
      | .f1 _, _ :: _ => simp [hmap] at h
      | .f2 _, [] => simp only [hmap] at h; cases h; simp
      | .f2 _, [_] => simp only [hmap] at h; cases h; simp
      | .f2 _, _ :: _ :: _ => simp [hmap] at h

theorem opcodeOf_mem_opcodeBytes (i : Instr) : opcodeOf i ∈ opcodeBytes := by
  cases i <;> simp [opcodeOf, opcodeBytes, opcodeRows]

theorem regOperands_subset_operandsOf (i : Instr) : i.regOperands ⊆ operandsOf i := by
  cases i <;> simp [Instr.regOperands, operandsOf]

end Sys2Proof

namespace Sys2Proof.Machine

/-- The bytes a fetch sees are those that exist from the program counter on, at most three. -/
theorem State.fetchBytes_length (s : State) : s.fetchBytes.length = min 3 (256 - s.pc.toNat) := by
  rcases s.fetchBytes_cases with ⟨hpc, hb⟩ | ⟨hpc, hb⟩ | ⟨hpc, hb⟩ | ⟨hpc, hb⟩ <;> rw [hb] <;>
    simp only [List.length_cons, List.length_nil] <;> omega

/-- Byte `k` of a fetch is the byte of memory `k` cells after the program counter. -/
theorem State.fetchBytes_getElem (s : State) {k : Nat} (h : k < s.fetchBytes.length) :
    s.fetchBytes[k] = s.mem.get (s.pc.toNat + k) := by
  rcases s.fetchBytes_cases with ⟨-, hb⟩ | ⟨hpc, hb⟩ | ⟨hpc, hb⟩ | ⟨-, hb⟩ <;>
    simp only [hb, List.length_cons, List.length_nil] at h ⊢
  · omega
  · obtain rfl : k = 0 := by omega
    simp [hpc]
  · obtain rfl | rfl : k = 0 ∨ k = 1 := by omega
    · simp [hpc]
    · simp [hpc]
  · obtain rfl | rfl | rfl : k = 0 ∨ k = 1 ∨ k = 2 := by omega
    · rfl
    · rfl
    · rfl

/-- The bytes a fetch begins with stand in memory at the program counter. -/
theorem State.holdsAtPc_of_fetchBytes {s : State} {bytes rest : List Byte} (hne : bytes ≠ [])
    (h : s.fetchBytes = bytes ++ rest) : s.HoldsAtPc bytes := by
  have hlen := s.fetchBytes_length
  have hpos := List.length_pos_of_ne_nil hne
  rw [h, List.length_append] at hlen
  refine ⟨by omega, fun k hk => ?_⟩
  rw [← s.fetchBytes_getElem (k := k) (by rw [h, List.length_append]; omega)]
  simp [h, List.getElem_append_left hk]

/-- A fetched instruction stands, encoded, in memory at the program counter. -/
theorem State.holdsAtPc_of_fetch_ok {s : State} {i : Instr} (h : s.fetch = .ok i) : s.HoldsAtPc (encode i) := by
  unfold State.fetch at h
  split at h
  · next j rest hdec =>
    cases h
    exact holdsAtPc_of_fetchBytes (by simp [encode]) (eq_encode_append_of_decode_ok hdec)
  · cases h

/-- Why a fetch failed, and where the program counter then stands (R68 to R70). -/
theorem State.fetch_error_cases {s : State} {e : DecodeError} (h : s.fetch = .error e) :
    (255 < s.pc.toNat ∧ e = .noOpcode) ∨
    (s.pc.toNat ≤ 255 ∧ s.mem.get s.pc.toNat ∉ opcodeBytes ∧ e = .unknownOpcode (s.mem.get s.pc.toNat)) ∨
    (∃ k, 1 ≤ k ∧ k ≤ 2 ∧ s.pc.toNat + k = 256 ∧ s.mem.get s.pc.toNat ∈ opcodeBytes ∧
      e = .missingOperand (s.mem.get s.pc.toNat) k) := by
  have hdec : decode s.fetchBytes = .error e := by
    unfold State.fetch at h
    split at h
    · cases h
    · next hdec => cases h; exact hdec
  have hlen := s.fetchBytes_length
  rcases decode_error_cases hdec with ⟨hb, rfl⟩ | ⟨opcode, rest, hb, hwhy⟩
  · rw [hb, List.length_nil] at hlen
    exact .inl ⟨by omega, rfl⟩
  · rw [hb, List.length_cons] at hlen
    have hop : opcode = s.mem.get s.pc.toNat := by
      have := s.fetchBytes_getElem (k := 0) (by simp [hb])
      simpa [hb] using this
    subst hop
    rcases hwhy with ⟨hunknown, rfl⟩ | ⟨hknown, hshort, rfl⟩
    · exact .inr (.inl ⟨by omega, hunknown, rfl⟩)
    · exact .inr (.inr ⟨_, by omega, by omega, by omega, hknown, rfl⟩)

/-! ### An encoding at the program counter -/

theorem State.HoldsAtPc.opcode_eq {s : State} {i : Instr} (h : s.HoldsAtPc (encode i)) :
    s.mem.get s.pc.toNat = opcodeOf i := by
  simpa [encode] using h.2 0 (by simp [encode])

theorem State.HoldsAtPc.pc_add_length_le {s : State} {i : Instr} (h : s.HoldsAtPc (encode i)) :
    s.pc.toNat + (operandsOf i).length ≤ 255 := by
  have := h.1
  simp only [encode, List.length_cons] at this
  omega

/-! ### A failed fetch changes only the status -/

section
variable (s : State) (e : DecodeError)

@[simp] theorem State.raiseFetch_mem : (s.raiseFetch e).mem = s.mem := by cases e <;> rfl
@[simp] theorem State.raiseFetch_regs : (s.raiseFetch e).regs = s.regs := by cases e <;> rfl
@[simp] theorem State.raiseFetch_pc : (s.raiseFetch e).pc = s.pc := by cases e <;> rfl
@[simp] theorem State.raiseFetch_flags : (s.raiseFetch e).flags = s.flags := by cases e <;> rfl
@[simp] theorem State.raiseFetch_out : (s.raiseFetch e).out = s.out := by cases e <;> rfl

theorem State.raiseFetch_status : ∃ r, (s.raiseFetch e).status = .faulted r := by cases e <;> exact ⟨_, rfl⟩

end

/-! ### The step in terms of `Effect` -/

/-- Everything a step can do: the fetch takes a fault, or the instruction that stands at the program counter has one of
its effects. -/
theorem step_effect {s t : State} (h : step s = .next t) :
    (∃ e, s.fetch = .error e ∧ t = s.raiseFetch e) ∨ (∃ i, s.HoldsAtPc (encode i) ∧ Effect s i t) := by
  rcases step_next h with ⟨-, hfault | ⟨i, hi, hexec⟩⟩
  · exact .inl hfault
  · exact .inr ⟨i, State.holdsAtPc_of_fetch_ok hi, exec_effect hexec⟩

end Sys2Proof.Machine

/-! ## Proofs: what an effect does to each part of the state

One lemma per part: the ways it can change, and which instruction changes it. -/

namespace Sys2Proof.Machine

variable {s t : State} {i : Instr}

/-- R26: only CMP writes the flags. -/
theorem Effect.flags_cases (h : Effect s i t) :
    t.flags = s.flags ∨
      ∃ a b : Reg, i = .cmp a.toByte b.toByte ∧ t.flags = compareFlags (s.readReg a) (s.readReg b) := by
  cases h with
  | cmp a b => exact .inr ⟨a, b, rfl, rfl⟩
  | _ => exact .inl (by simp)

/-- R39: only PUSH and CALL write memory, one byte below SP. -/
theorem Effect.mem_cases (h : Effect s i t) :
    t.mem = s.mem ∨
      ∃ (r : Reg) (v : Byte), (i = .push r.toByte ∨ i = .call r.toByte) ∧ t.mem = s.mem.set s.pushAddr.toNat v := by
  cases h with
  | push r => exact .inr ⟨r, _, .inl rfl, by rw [State.advance_mem, State.pushWith_mem]⟩
  | call r _ => exact .inr ⟨r, _, .inr rfl, by rw [State.jump_mem, State.pushValue_eq, State.pushWith_mem]⟩
  | _ => exact .inl (by simp)

/-- R33: the output grows by `x[r]` where PRN completes, and by nothing elsewhere. -/
theorem Effect.out_cases (h : Effect s i t) :
    (t.out = s.out ∧ (opcodeOf i = 0x47 → ∃ r, t.status = .faulted r)) ∨
      ∃ r : Reg, i = .prn r.toByte ∧ t.out = s.out ++ [s.readReg r] ∧ t.status = s.status := by
  cases h with
  | prn r => exact .inr ⟨r, rfl, rfl, rfl⟩
  | registerFault => exact .inl ⟨rfl, fun _ => ⟨_, rfl⟩⟩
  | _ => exact .inl ⟨by simp, by simp [opcodeOf]⟩

/-- R74: the program counter is kept (HLT and the faults), or set to a byte (the jumps taken), or falls through past an
instruction of two or of three bytes. -/
theorem Effect.pc_cases (h : Effect s i t) :
    t.pc = s.pc ∨ t.pc.toNat ≤ 255 ∨
      (t.pc = s.pc + 2 ∧ (operandsOf i).length = 1 ∧ opcodeOf i ∈ ([0x47, 0x45, 0x46, 0x55, 0x56] : List Byte)) ∨
      (t.pc = s.pc + 3 ∧ (operandsOf i).length = 2 ∧ opcodeOf i ∈ ([0x82, 0xA0, 0xA1, 0xA2, 0xA7] : List Byte)) := by
  have target_le (u : State) (b : Byte) : (u.jump b).pc.toNat ≤ 255 := by
    simpa using Nat.le_of_lt_succ b.isLt
  have jumpIf_pc (taken : Bool) (r : Reg) :
      (s.jumpIf taken r).pc.toNat ≤ 255 ∨ (s.jumpIf taken r).pc = s.pc + 2 := by
    cases taken with
    | true => exact .inl (target_le s _)
    | false => exact .inr rfl
  cases h with
  | hlt | callFault | registerFault => exact .inl rfl
  | call | ret | jmp => exact .inr (.inl (target_le _ _))
  | prn | push | pop => exact .inr (.inr (.inl ⟨rfl, rfl, by simp [opcodeOf]⟩))
  | ldi | add | sub | mul | cmp => exact .inr (.inr (.inr ⟨rfl, rfl, by simp [opcodeOf]⟩))
  | jeq r | jne r =>
    rcases jumpIf_pc _ r with hle | hpc
    · exact .inr (.inl hle)
    · exact .inr (.inr (.inl ⟨hpc, rfl, by simp [opcodeOf]⟩))

end Sys2Proof.Machine

/-! ## Proofs: the invariant, part by part -/

namespace Sys2Proof.Machine

variable {s t : State} {i : Instr}

theorem compareFlags_legal (u v : Byte) : (compareFlags u v).legal := by
  unfold Flags.legal
  rcases compareFlags_cases u v with ⟨-, h⟩ | ⟨-, h⟩ | ⟨-, h⟩ <;> simp [h]

theorem Effect.flags_legal (h : Effect s i t) (hs : s.flags.legal) : t.flags.legal := by
  rcases h.flags_cases with hf | ⟨a, b, -, hf⟩ <;> rw [hf]
  · exact hs
  · exact compareFlags_legal _ _

theorem Effect.mem_wf (h : Effect s i t) (hs : s.mem.wf) : t.mem.wf := by
  rcases h.mem_cases with hm | ⟨-, v, -, hm⟩ <;> rw [hm]
  · exact hs
  · exact Memory.set_wf hs s.pushAddr.isLt v

/-- Falling through ends at most at 256, because the whole instruction lies in memory (R20, R70). -/
theorem Effect.pc_le (h : Effect s i t) (hat : s.HoldsAtPc (encode i)) : t.pc.toNat ≤ 256 := by
  have hpc := hat.pc_add_length_le
  rcases h.pc_cases with ht | ht | ⟨ht, hlen, -⟩ | ⟨ht, hlen, -⟩
  · rw [ht]; omega
  · omega
  · rw [hlen] at hpc; bv_omega
  · rw [hlen] at hpc; bv_omega

/-- The record of a failed fetch is legal and holds the program counter (R68 to R70, R106, R108). -/
theorem State.raiseFetch_record_legal {e : DecodeError} (hpc : s.pc.toNat ≤ 256) (h : s.fetch = .error e)
    {r : FaultRecord} (hr : (s.raiseFetch e).status = .faulted r) :
    r.legal ∧ r.fpc = (s.raiseFetch e).pc := by
  rcases fetch_error_cases h with ⟨hout, rfl⟩ | ⟨hin, hunknown, rfl⟩ | ⟨k, hk1, hk2, hk, hknown, rfl⟩ <;>
    cases hr
  · have h256 : s.pc = 256 := by bv_omega
    exact ⟨⟨h256, .inl ⟨h256, rfl⟩⟩, rfl⟩
  · exact ⟨⟨hin, _, hunknown, rfl, rfl⟩, rfl⟩
  · have hinfo : s.pc + BitVec.ofNat 9 k = 256 := by bv_omega
    exact ⟨⟨hinfo, .inr ⟨by simp only; omega, by simp only; omega, _, hknown, rfl⟩⟩, rfl⟩

/-- The record of a fault taken by an instruction is legal and holds the program counter (R71, R94, R108). -/
theorem Effect.record_legal (h : Effect s i t) (hat : s.HoldsAtPc (encode i)) (hrun : s.status = .running)
    {r : FaultRecord} (hr : t.status = .faulted r) : r.legal ∧ r.fpc = t.pc := by
  have hpc := hat.pc_add_length_le
  rcases h.status_cases with ⟨-, rfl⟩ | ⟨b, hb, rfl⟩ | ⟨c, rfl, hret, rfl⟩ | ⟨-, hkept⟩
  · cases hr
  · cases hr
    have hhigh : 7 < b.toNat := by simpa using List.find?_some hb
    have hop := regOperands_subset_operandsOf i (List.mem_of_find?_eq_some hb)
    have hpos := List.length_pos_of_mem hop
    have hinfo := addr9_toNat b
    have hlt := b.isLt
    exact ⟨⟨by simp only; omega, by simp only; omega, by simp only; omega,
      _, opcodeOf_mem_opcodeBytes i, rfl⟩, rfl⟩
  · cases hr
    simp only [operandsOf, List.length_singleton] at hpc
    have h254 : s.pc.toNat = 254 := by omega
    exact ⟨⟨by simp [h254], .inr ⟨by simp [h254], by simp [h254], 0x50, by decide, rfl⟩⟩, rfl⟩
  · rw [hkept, hrun] at hr
    cases hr

/-- Settles O40: each part of the invariant by its own lemma, for a failed fetch and for an effect. -/
theorem stepKeepsInvariant : Obligations.StepKeepsInvariant := by
  rintro s t ⟨hpc, hmem, hflags, -⟩ hstep
  have hrun := (step_next hstep).1
  rcases step_effect hstep with ⟨e, he, rfl⟩ | ⟨i, hat, heff⟩
  · refine ⟨by simpa using hpc, by simpa using hmem, by simpa using hflags, fun r hr => ?_⟩
    exact State.raiseFetch_record_legal hpc he hr
  · refine ⟨heff.pc_le hat, heff.mem_wf hmem, heff.flags_legal hflags, fun r hr => ?_⟩
    exact heff.record_legal hat hrun hr

end Sys2Proof.Machine

/-! ## Proofs: `Effect` is exactly what `exec` does

The converse of `exec_effect`, so that a claim about the result of `exec` on a changed state is a choice of an effect. -/

namespace Sys2Proof.Machine

variable {s t : State} {i : Instr}

/-- A one-register check takes the fault of the operand above 7 (R71). -/
theorem withReg_of_find? {op a b : Byte} {go : Reg → Host.Outcome State Fault Refusal}
    (h : [a].find? (fun b => decide (7 < b.toNat)) = some b) : withReg op a s go = .next (s.raiseReg op b) := by
  have hb : 7 < b.toNat := by simpa using List.find?_some h
  obtain rfl : b = a := List.mem_singleton.mp (List.mem_of_find?_eq_some h)
  exact withReg_high op hb s go

/-- A two-register check takes the fault of the first operand above 7 (R71). -/
theorem withRegs_of_find? {op a₁ a₂ b : Byte} {go : Reg → Reg → Host.Outcome State Fault Refusal}
    (h : [a₁, a₂].find? (fun b => decide (7 < b.toNat)) = some b) :
    withRegs op a₁ a₂ s go = .next (s.raiseReg op b) := by
  rcases Reg.byte_cases a₁ with ⟨r, rfl⟩ | ⟨hhigh, -⟩
  · have hlow : ¬ 7 < r.toByte.toNat := by have := r.toByte_lt; omega
    rw [List.find?_cons_of_neg (by simpa using hlow)] at h
    rw [withRegs, withReg_toByte]
    exact withReg_of_find? h
  · rw [List.find?_cons_of_pos (by simpa using hhigh)] at h
    cases h
    exact withRegs_high1 op a₂ hhigh s go

/-- R71: an instruction with a register operand above 7 takes the fault of the first such operand. -/
theorem exec_registerFault {b : Byte} (h : i.regOperands.find? (fun b => decide (7 < b.toNat)) = some b) :
    exec i s = .next (s.raiseReg (opcodeOf i) b) := by
  cases i with
  | hlt | ret => cases h
  | ldi | prn | push | pop | call | jmp | jeq | jne => exact withReg_of_find? h
  | add | sub | mul | cmp => exact withRegs_of_find? h

/-- Every effect is the answer of `exec`: with `exec_effect`, the relation is exactly what `exec` does. -/
theorem Effect.exec_eq (h : Effect s i t) : exec i s = .next t := by
  cases h with
  | registerFault _ b h => exact exec_registerFault h
  | hlt | ret => rfl
  | ldi | prn | push | pop | jmp | jeq | jne => exact withReg_toByte _ _ _ _
  | add | sub | mul | cmp => exact withRegs_toByte _ _ _ _ _
  | call r hin => exact (withReg_toByte _ _ _ _).trans (if_neg (by omega))
  | callFault r hout => exact (withReg_toByte _ _ _ _).trans (if_pos hout)

end Sys2Proof.Machine

/-! ## Proofs: who writes and who reads the flags -/

namespace Sys2Proof.Machine

variable {s t : State} {i : Instr}

theorem opcodeOf_eq_cmp_iff : opcodeOf i = 0xA7 ↔ ∃ a b, i = .cmp a b := by
  cases i <;> simp [opcodeOf]

/-- R26: an instruction whose opcode is not CMP's keeps the flags. -/
theorem Effect.flags_eq (h : Effect s i t) (hi : opcodeOf i ≠ 0xA7) : t.flags = s.flags := by
  rcases h.flags_cases with hf | ⟨a, b, rfl, -⟩
  · exact hf
  · exact absurd rfl hi

/-- Settles O33: CMP's flags are a function of the two registers, and no other effect, nor a failed fetch, writes any. -/
theorem onlyCmpWritesFlags : Obligations.OnlyCmpWritesFlags := by
  refine ⟨fun a b s f => ?_, fun i s t hexec hi => ?_, fun s t hstep hop => ?_⟩
  · refine ⟨_, (Effect.cmp a b).exec_eq, (Effect.cmp a b).exec_eq, ?_⟩
    rcases compareFlags_cases (s.readReg a) (s.readReg b) with ⟨-, h⟩ | ⟨-, h⟩ | ⟨-, h⟩
    · exact .inl h
    · exact .inr (.inl h)
    · exact .inr (.inr h)
  · refine (exec_effect hexec).flags_eq fun hop => ?_
    obtain ⟨a, b, hcmp⟩ := opcodeOf_eq_cmp_iff.mp hop
    exact hi a b hcmp
  · rcases step_effect hstep with ⟨e, -, rfl⟩ | ⟨i, hat, heff⟩
    · exact s.raiseFetch_flags e
    · exact heff.flags_eq (hat.opcode_eq ▸ hop)

/-- R27: on other flags that JEQ and JNE cannot tell apart, an instruction has the same effect but for the flags. -/
theorem Effect.writeFlags (f : Flags) (h : Effect s i t)
    (hf : f.E = s.flags.E ∨ ∀ r, i ≠ .jeq r ∧ i ≠ .jne r) :
    ∃ u, Effect (s.writeFlags f) i u ∧ u.writeFlags t.flags = t := by
  cases h with
  | hlt => exact ⟨_, .hlt, rfl⟩
  | ldi r v => exact ⟨_, .ldi r v, rfl⟩
  | prn r => exact ⟨_, .prn r, rfl⟩
  | add a b => exact ⟨_, .add a b, rfl⟩
  | sub a b => exact ⟨_, .sub a b, rfl⟩
  | mul a b => exact ⟨_, .mul a b, rfl⟩
  | push r => exact ⟨_, .push r, rfl⟩
  | pop r => exact ⟨_, .pop r, rfl⟩
  | call r hin => exact ⟨_, .call r hin, rfl⟩
  | callFault r hout => exact ⟨_, .callFault r hout, rfl⟩
  | ret => exact ⟨_, .ret, rfl⟩
  | cmp a b => exact ⟨_, .cmp a b, rfl⟩
  | jmp r => exact ⟨_, .jmp r, rfl⟩
  | jeq r =>
    have hE : f.E = s.flags.E := hf.resolve_right fun h => (h r.toByte).1 rfl
    refine ⟨_, .jeq r, ?_⟩
    rw [State.writeFlags_flags, hE]
    cases s.flags.E <;> rfl
  | jne r =>
    have hE : f.E = s.flags.E := hf.resolve_right fun h => (h r.toByte).2 rfl
    refine ⟨_, .jne r, ?_⟩
    rw [State.writeFlags_flags, hE]
    cases s.flags.E <;> rfl
  | registerFault _ b hb => exact ⟨_, .registerFault _ b hb, rfl⟩

/-- Settles O34: `Effect.writeFlags`, read off `exec`. -/
theorem onlyJumpsReadFlagsAndOnlyE : Obligations.OnlyJumpsReadFlagsAndOnlyE := by
  intro i s t f hf hexec
  obtain ⟨u, heff, hu⟩ := (exec_effect hexec).writeFlags f hf
  exact ⟨u, heff.exec_eq, hu⟩

end Sys2Proof.Machine

/-! ## Proofs: who writes and who reads the registers

States that agree on all but register `q` still do after the same operation, as long as its operands do not come from `q`. -/

namespace Sys2Proof.Machine

section
variable {q : Reg} {t u : State} (h : AgreeBut q t u)
include h

theorem AgreeBut.readReg {r : Reg} (hr : r ≠ q) : u.readReg r = t.readReg r := h.1 r (by simpa using hr)

theorem AgreeBut.load (a : Byte) : u.load a = t.load a := h.2.1 a.toNat

theorem AgreeBut.pc_eq : u.pc = t.pc := h.2.2.1

theorem AgreeBut.flags_eq : u.flags = t.flags := h.2.2.2.1

theorem AgreeBut.popSp (hq : .r7 ≠ q) : u.popSp = t.popSp := by
  simp only [State.popSp, Reg.sp_eq, h.readReg hq]

theorem AgreeBut.pushAddr (hq : .r7 ≠ q) : u.pushAddr = t.pushAddr := by
  simp only [State.pushAddr, Reg.sp_eq, h.readReg hq]

theorem AgreeBut.writeReg (r : Reg) (v : Byte) : AgreeBut q (t.writeReg r v) (u.writeReg r v) := by
  obtain ⟨hregs, hrest⟩ := h
  refine ⟨fun x hx => ?_, hrest⟩
  simp only [State.readReg_writeReg, hregs x hx]

theorem AgreeBut.store (a v : Byte) : AgreeBut q (t.store a v) (u.store a v) := by
  obtain ⟨hregs, hmem, hrest⟩ := h
  refine ⟨hregs, fun x => ?_, hrest⟩
  simp only [State.store_mem, Memory.get_set, hmem x]

theorem AgreeBut.advance (n : Nat) : AgreeBut q (t.advance n) (u.advance n) := by
  obtain ⟨hregs, hmem, hpc, hrest⟩ := h
  exact ⟨hregs, hmem, by simp [hpc], hrest⟩

theorem AgreeBut.jump (b : Byte) : AgreeBut q (t.jump b) (u.jump b) := by
  obtain ⟨hregs, hmem, -, hrest⟩ := h
  exact ⟨hregs, hmem, rfl, hrest⟩

theorem AgreeBut.writeFlags (f : Flags) : AgreeBut q (t.writeFlags f) (u.writeFlags f) := by
  obtain ⟨hregs, hmem, hpc, -, hrest⟩ := h
  exact ⟨hregs, hmem, hpc, rfl, hrest⟩

theorem AgreeBut.emit (v : Byte) : AgreeBut q (t.emit v) (u.emit v) := by
  obtain ⟨hregs, hmem, hpc, hflags, hstatus, hout⟩ := h
  exact ⟨hregs, hmem, hpc, hflags, hstatus, by simp [hout]⟩

theorem AgreeBut.halt : AgreeBut q t.halt u.halt := by
  obtain ⟨hregs, hmem, hpc, hflags, -, hout⟩ := h
  exact ⟨hregs, hmem, hpc, hflags, rfl, hout⟩

theorem AgreeBut.raise (kind : FaultKind) (opcode : Option Byte) (info : Addr9) :
    AgreeBut q (t.raise kind opcode info) (u.raise kind opcode info) := by
  obtain ⟨hregs, hmem, hpc, hflags, -, hout⟩ := h
  exact ⟨hregs, hmem, hpc, hflags, by simp [hpc], hout⟩

/-- The pushed byte is computed after SP is decremented, so it is the agreement there that counts. -/
theorem AgreeBut.pushWith (hq : .r7 ≠ q) {v : State → Byte}
    (hv : v (u.writeReg .r7 t.pushAddr) = v (t.writeReg .r7 t.pushAddr)) :
    AgreeBut q (t.pushWith v) (u.pushWith v) := by
  rw [State.pushWith_eq, State.pushWith_eq, h.pushAddr hq, hv]
  exact (h.writeReg _ _).store _ _

theorem AgreeBut.jumpIf {r : Reg} (taken : Bool) (hr : taken = true → r ≠ q) :
    AgreeBut q (t.jumpIf taken r) (u.jumpIf taken r) := by
  cases taken with
  | true => simpa [h.readReg (hr rfl)] using h.jump (t.readReg r)
  | false => exact h.advance 2

end

theorem agreeBut_writeReg (q : Reg) (s : State) (v : Byte) : AgreeBut q s (s.writeReg q v) := by
  refine ⟨fun r hr => ?_, fun _ => rfl, rfl, rfl, rfl, rfl⟩
  have hne : r ≠ q := by simpa using hr
  simp [hne]

@[simp] theorem regList_toByte (r : Reg) : regList r.toByte = [r] := by simp [regList]

variable {s t : State} {i : Instr}

/-- R16, the written column. -/
theorem Effect.keepsRegsBut_writesOf (h : Effect s i t) : KeepsRegsBut s t (writesOf i) := by
  intro q hq
  cases h with
  | hlt | prn | cmp | jmp | callFault | registerFault => rfl
  | jeq | jne => exact State.jumpIf_readReg ..
  | ldi r _ | add r _ | sub r _ | mul r _ =>
    have hne : ¬ q = r := by simpa [writesOf] using hq
    simp [hne]
  | push | call | ret =>
    have hne : ¬ q = .r7 := by simpa [writesOf] using hq
    simp [hne]
  | pop r =>
    have hne : ¬ q = r ∧ ¬ q = .r7 := by simpa [writesOf] using hq
    simp [hne]

/-- R16, the read column: states that agree on all but a register outside it lead to states that do. -/
theorem Effect.agreeBut {q : Reg} {s' : State} (h : Effect s i t) (hs : AgreeBut q s s')
    (hq : q ∉ readsOf s.flags.E i) : ∃ u, Effect s' i u ∧ AgreeBut q t u := by
  cases h with
  | hlt => exact ⟨_, .hlt, hs.halt⟩
  | ldi r v => exact ⟨_, .ldi r v, (hs.writeReg r v).advance 3⟩
  | prn r =>
    have hr : r ≠ q := by simpa [readsOf, eq_comm] using hq
    refine ⟨_, .prn r, ?_⟩
    rw [hs.readReg hr]
    exact (hs.emit _).advance 2
  | add a b | sub a b | mul a b =>
    have hab : a ≠ q ∧ b ≠ q := by simpa [readsOf, eq_comm] using hq
    refine ⟨_, by constructor, ?_⟩
    rw [hs.readReg hab.1, hs.readReg hab.2]
    exact (hs.writeReg a _).advance 3
  | push r =>
    have hr : Reg.r7 ≠ q ∧ r ≠ q := by simpa [readsOf, eq_comm] using hq
    exact ⟨_, .push r, (hs.pushWith hr.1 ((hs.writeReg _ _).readReg hr.2)).advance 2⟩
  | pop r =>
    have hsp : Reg.r7 ≠ q := by simpa [readsOf, eq_comm] using hq
    refine ⟨_, .pop r, ?_⟩
    rw [hs.readReg hsp, hs.load, (hs.writeReg r _).popSp hsp]
    exact ((hs.writeReg r _).writeReg .r7 _).advance 2
  | call r hin =>
    have hr : Reg.r7 ≠ q ∧ r ≠ q := by simpa [readsOf, eq_comm] using hq
    refine ⟨_, .call r (hs.pc_eq ▸ hin), ?_⟩
    have hpush := hs.pushWith hr.1 (v := fun _ => BitVec.ofNat 8 (s.pc.toNat + 2)) rfl
    simp only [hs.pc_eq, State.pushValue_eq]
    rw [hpush.readReg hr.2]
    exact hpush.jump _
  | callFault r hout =>
    refine ⟨_, .callFault r (hs.pc_eq ▸ hout), ?_⟩
    rw [hs.pc_eq]
    exact hs.raise _ _ _
  | ret =>
    have hsp : Reg.r7 ≠ q := by simpa [readsOf, eq_comm] using hq
    refine ⟨_, .ret, ?_⟩
    rw [hs.readReg hsp, hs.load, hs.popSp hsp]
    exact (hs.writeReg .r7 _).jump _
  | cmp a b =>
    have hab : a ≠ q ∧ b ≠ q := by simpa [readsOf, eq_comm] using hq
    refine ⟨_, .cmp a b, ?_⟩
    rw [hs.readReg hab.1, hs.readReg hab.2]
    exact (hs.writeFlags _).advance 3
  | jmp r =>
    have hr : r ≠ q := by simpa [readsOf, eq_comm] using hq
    refine ⟨_, .jmp r, ?_⟩
    rw [hs.readReg hr]
    exact hs.jump _
  | jeq r =>
    refine ⟨_, .jeq r, ?_⟩
    rw [hs.flags_eq]
    exact hs.jumpIf _ fun hE => by simpa [readsOf, hE, eq_comm] using hq
  | jne r =>
    refine ⟨_, .jne r, ?_⟩
    rw [hs.flags_eq]
    refine hs.jumpIf _ fun hE => ?_
    have hclear : s.flags.E = false := by simpa using hE
    simpa [readsOf, hclear, eq_comm] using hq
  | registerFault _ b hb => exact ⟨_, .registerFault _ b hb, hs.raise _ _ _⟩

/-- Settles O35: the two columns by the lemmas above; a failed fetch keeps the registers. -/
theorem registersReadAndWrittenAsTabled : Obligations.RegistersReadAndWrittenAsTabled := by
  refine ⟨fun i s t hexec => (exec_effect hexec).keepsRegsBut_writesOf, fun i s t q v hexec hq => ?_,
    fun s t hstep hregs => ?_⟩
  · obtain ⟨u, heff, hu⟩ := (exec_effect hexec).agreeBut (agreeBut_writeReg q s v) hq
    exact ⟨u, heff.exec_eq, hu⟩
  · rcases (step_next hstep).2 with ⟨e, -, rfl⟩ | hok
    · exact absurd (s.raiseFetch_regs e) hregs
    · exact hok

end Sys2Proof.Machine

/-! ## Proofs: entering HALTED, the output, and the end of memory -/

namespace Sys2Proof.Machine

variable {s t : State} {i : Instr}

/-- R29: an instruction that enters HALTED is HLT, and changes nothing but the status. -/
theorem Effect.eq_hlt_of_halted (h : Effect s i t) (hs : s.status ≠ .halted) (ht : t.status = .halted) :
    i = .hlt ∧ t = s.halt := by
  rcases h.status_cases with hhlt | ⟨b, -, rfl⟩ | ⟨r, -, -, rfl⟩ | ⟨-, hkept⟩
  · exact hhlt
  · cases ht
  · cases ht
  · exact absurd (hkept ▸ ht) hs

/-- Settles O37: a failed fetch ends FAULTED, and of the effects only HLT's ends HALTED. -/
theorem onlyHltEntersHalted : Obligations.OnlyHltEntersHalted := by
  intro s t hstep ht
  have hrun := (step_next hstep).1
  rcases step_effect hstep with ⟨e, -, rfl⟩ | ⟨i, hat, heff⟩
  · obtain ⟨r, hr⟩ := s.raiseFetch_status e
    rw [hr] at ht; cases ht
  · obtain ⟨rfl, rfl⟩ := heff.eq_hlt_of_halted (by simp [hrun]) ht
    exact ⟨hat.pc_add_length_le, hat.opcode_eq, rfl⟩

theorem outPulse_of_out_eq (h : t.out = s.out) : outPulse s t = none := by
  simp [outPulse, h]

theorem outPulse_of_out_append {v : Byte} (h : t.out = s.out ++ [v]) : outPulse s t = some v := by
  simp [outPulse, h]

/-- Settles O38: `Effect.out_cases`, with PRN's bytes read at the program counter. -/
theorem outputGrowsOnlyByPrn : Obligations.OutputGrowsOnlyByPrn := by
  intro s t hstep
  have hrun := (step_next hstep).1
  rcases step_effect hstep with ⟨e, -, rfl⟩ | ⟨i, hat, heff⟩
  · have hout := s.raiseFetch_out e
    exact .inl ⟨outPulse_of_out_eq hout, hout, fun _ => s.raiseFetch_status e⟩
  · rcases heff.out_cases with ⟨hout, hfault⟩ | ⟨r, rfl, hout, hstatus⟩
    · exact .inl ⟨outPulse_of_out_eq hout, hout, fun hop => hfault (hat.opcode_eq ▸ hop)⟩
    · have hpc : s.pc.toNat + 1 ≤ 255 := hat.pc_add_length_le
      have hop1 : s.mem.get (s.pc.toNat + 1) = r.toByte := hat.2 1 (by simp [encode, operandsOf])
      exact .inr ⟨r, by omega, hat.opcode_eq, hop1, outPulse_of_out_append hout, hout, hstatus.trans hrun⟩

/-- Settles O39: of the ways `Effect.pc_cases` lists, only falling through passes 255. -/
theorem pcReaches256OnlyByFallThrough : Obligations.PcReaches256OnlyByFallThrough := by
  intro s t hstep hpc ht
  rcases step_effect hstep with ⟨e, -, rfl⟩ | ⟨i, hat, heff⟩
  · rw [State.raiseFetch_pc] at ht
    simp [ht] at hpc
  · have hop := hat.opcode_eq
    rcases heff.pc_cases with hkept | hle | ⟨h2, -, hmem⟩ | ⟨h3, -, hmem⟩
    · simp [← hkept, ht] at hpc
    · simp [ht] at hle
    · have h254 : s.pc = 254 := by bv_omega
      exact .inl ⟨h254, by simpa [← hop, h254] using hmem⟩
    · have h253 : s.pc = 253 := by bv_omega
      exact .inr ⟨h253, by simpa [← hop, h253] using hmem⟩

end Sys2Proof.Machine

/-! ## Proofs: register names, reset and boot -/

namespace Sys2Proof.Machine

/-- Settles O3: the eight bytes by evaluation, the others by the law of `Reg.ofByte` above 7. -/
theorem indexBytesNameRegisters : Obligations.IndexBytesNameRegisters :=
  ⟨rfl, rfl, rfl, rfl, rfl, rfl, rfl, rfl, Reg.ofByte_toByte, fun _ => Reg.ofByte_eq_none⟩

/-- R18: R7 is 0xF4 after reset and every other register 0. -/
theorem RegFile.get_reset (r : Reg) : RegFile.reset.get r = if r = .r7 then 0xF4 else 0 := by
  cases r <;> rfl

/-- Settles O50: both kinds of reset give the registers of `RegFile.reset` and pc 0. -/
theorem resetSetsRegistersAndPc : Obligations.ResetSetsRegistersAndPc := by
  intro t ht
  obtain ⟨hregs, hpc⟩ : t.regs = RegFile.reset ∧ t.pc = 0 := by
    rcases ht with rfl | ⟨progEmpty, s, rfl⟩ <;> exact ⟨rfl, rfl⟩
  have hread (r : Reg) : t.readReg r = if r = .r7 then 0xF4 else 0 := by
    rw [State.readReg, hregs, RegFile.get_reset]
  exact ⟨hread .r7, fun r hr => (hread r).trans (if_neg hr), hpc⟩

/-- R31: the status after a boot says whether the image was empty. -/
theorem boot_status {values : List Nat} {s t : State} (h : boot values s = some t) :
    t.status = if values.isEmpty then .halted else .running := by
  rw [(boot_eq_some.mp h).2]
  rfl

/-- Settles O51: the empty image always fits, `boot_status` gives both statuses, and only HLT enters HALTED. -/
theorem emptyImageStartsHalted : Obligations.EmptyImageStartsHalted := by
  refine ⟨fun s => ?_, fun values s t hne hboot => ?_, fun i s t hexec hs ht => ?_⟩
  · have hboot := boot_eq_some (values := []) (s := s) |>.mpr ⟨by simp, rfl⟩
    exact ⟨_, hboot, boot_status hboot⟩
  · simpa [hne] using boot_status hboot
  · exact ((exec_effect hexec).eq_hlt_of_halted hs ht).1

end Sys2Proof.Machine

/-! ## Proofs: the checked accesses and the canonical form of memory -/

namespace Sys2Proof.Machine

/-- Settles O44: the two laws of the checked read. -/
theorem memReadAnswersOnlyInRange : Obligations.MemReadAnswersOnlyInRange :=
  fun m _ => ⟨m.read?_in, m.read?_out⟩

theorem Memory.write?_in (m : Memory) {a : Nat} (v : Byte) (h : a ≤ 255) : m.write? a v = some (m.set a v) :=
  if_pos (Nat.lt_succ_of_le h)

theorem Memory.write?_out (m : Memory) {a : Nat} (v : Byte) (h : 255 < a) : m.write? a v = none :=
  if_neg (Nat.not_lt_of_le h)

/-- Settles O45: in range the checked write is `Memory.set`, whose reads `Memory.get_set` gives. -/
theorem memWriteSetsOneCell : Obligations.MemWriteSetsOneCell := by
  refine fun m a v => ⟨fun hin => ⟨m.set a v, m.write?_in v hin, ?_, fun x hx => ?_⟩, m.write?_out v⟩
  · rw [Memory.get_set, if_pos rfl]
  · rw [Memory.get_set, if_neg hx]

/-- A byte that is not the unwritten one is read from an entry. -/
theorem mem_of_cellsGet {cs : List Host.Cell} {a : Nat} {v : Byte} (hv : v ≠ Config.unwrittenByte)
    (h : cellsGet cs a = v) : (a, v) ∈ cs := by
  induction cs with
  | nil => exact absurd h.symm hv
  | cons c cs ih =>
    by_cases hc : c.1 = a
    · obtain rfl : c = (a, v) := Prod.ext hc (by simpa [cellsGet, hc] using h)
      exact List.mem_cons_self
    · exact List.mem_cons_of_mem c (ih (by simpa [cellsGet, hc] using h))

/-- Where addresses rise strictly no entry hides another: each is what its address reads as. -/
theorem cellsGet_of_mem {cs : List Host.Cell} {c : Host.Cell} (hs : cs.Pairwise fun c d => c.1 < d.1)
    (h : c ∈ cs) : cellsGet cs c.1 = c.2 := by
  induction cs with
  | nil => cases h
  | cons d cs ih =>
    obtain ⟨hd, hcs⟩ := List.pairwise_cons.mp hs
    rcases List.mem_cons.mp h with rfl | hc
    · simp [cellsGet]
    · have hne : d.1 ≠ c.1 := (hd c hc).ne
      simpa [cellsGet, hne] using ih hcs hc

/-- In the canonical form the entries are exactly the addresses that read as something other than the unwritten byte. -/
theorem Memory.mem_cells_iff {m : Memory} (hm : m.wf) (c : Host.Cell) :
    c ∈ m.cells ↔ c.2 ≠ Config.unwrittenByte ∧ m.get c.1 = c.2 :=
  ⟨fun h => ⟨(hm.2 c h).2, cellsGet_of_mem hm.1 h⟩, fun ⟨hv, h⟩ => mem_of_cellsGet hv h⟩

/-- Settles O46: memories that read alike have the same entries (`Memory.mem_cells_iff`), and a strictly rising list is
determined by its members. -/
theorem equalMemoriesAreEqualData : Obligations.EqualMemoriesAreEqualData := by
  intro m m' hm hm' hget
  have hmem (c : Host.Cell) : c ∈ m.cells ↔ c ∈ m'.cells := by
    rw [Memory.mem_cells_iff hm, Memory.mem_cells_iff hm', hget]
  have hirrefl : Std.Irrefl fun c d : Host.Cell => c.1 < d.1 := ⟨fun _ => Nat.lt_irrefl _⟩
  have hantisymm : Std.Antisymm fun c d : Host.Cell => c.1 < d.1 := ⟨fun _ _ h h' => absurd h (Nat.lt_asymm h')⟩
  exact congrArg Memory.mk (hm.1.eq_of_mem_iff hm'.1 hmem)

end Sys2Proof.Machine

/-! ## Proofs: who writes memory -/

namespace Sys2Proof.Machine

/-- R89: an instruction that writes memory leaves SP at the address of its push. -/
theorem Effect.sp_eq_pushAddr {s t : State} {i : Instr} (h : Effect s i t) (hwrite : t.mem ≠ s.mem) :
    t.readReg .r7 = s.pushAddr := by
  cases h with
  | push | call => simp
  | _ => exact absurd (by simp) hwrite

/-- Settles O36: a failed fetch keeps memory, and an effect that does not is a push at the new SP. -/
theorem onlyPushAndCallWriteMemory : Obligations.OnlyPushAndCallWriteMemory := by
  intro s t hstep
  by_cases hkept : t.mem = s.mem
  · exact .inl fun a => by rw [hkept]
  rcases step_effect hstep with ⟨e, -, rfl⟩ | ⟨i, hat, heff⟩
  · exact absurd (s.raiseFetch_mem e) hkept
  obtain ⟨r, v, hi, hmem⟩ := heff.mem_cases.resolve_left hkept
  have hsp := heff.sp_eq_pushAddr hkept
  have hop : opcodeOf i = 0x45 ∨ opcodeOf i = 0x50 := by
    rcases hi with rfl | rfl
    · exact .inl rfl
    · exact .inr rfl
  refine .inr ⟨hat.opcode_eq ▸ hop, by have := hat.pc_add_length_le; omega, ?_, fun x hx => ?_⟩
  · rw [hsp, State.pushAddr_toNat]
  · rw [hmem, Memory.get_set, if_neg (hsp ▸ hx)]

end Sys2Proof.Machine

/-! ## Proofs: what stands at the program counter is what is fetched -/

namespace Sys2Proof

/-- The round trip of the decoder, for every instruction (R55, R57). -/
theorem decode_encode_append (i : Instr) : Laws.RoundTrip.Statement i :=
  match i with
  | .hlt => Laws.RoundTrip.hlt
  | .ldi r i => Laws.RoundTrip.ldi r i
  | .prn r => Laws.RoundTrip.prn r
  | .add a b => Laws.RoundTrip.add a b
  | .sub a b => Laws.RoundTrip.sub a b
  | .mul a b => Laws.RoundTrip.mul a b
  | .push r => Laws.RoundTrip.push r
  | .pop r => Laws.RoundTrip.pop r
  | .call r => Laws.RoundTrip.call r
  | .ret => Laws.RoundTrip.ret
  | .cmp a b => Laws.RoundTrip.cmp a b
  | .jmp r => Laws.RoundTrip.jmp r
  | .jeq r => Laws.RoundTrip.jeq r
  | .jne r => Laws.RoundTrip.jne r

theorem encode_length_le (i : Instr) : (encode i).length ≤ 3 := by
  cases i <;> simp [encode, operandsOf]

end Sys2Proof

namespace Sys2Proof.Machine

variable {s : State}

/-- Up to three bytes that stand at the program counter are the first that a fetch sees. -/
theorem State.HoldsAtPc.prefix_fetchBytes {bytes : List Byte} (h : s.HoldsAtPc bytes) (hlen : bytes.length ≤ 3) :
    bytes <+: s.fetchBytes := by
  obtain ⟨hin, hbyte⟩ := h
  have hle : bytes.length ≤ s.fetchBytes.length := by rw [State.fetchBytes_length]; omega
  refine List.prefix_iff_getElem.mpr ⟨hle, fun k hk => ?_⟩
  rw [State.fetchBytes_getElem s (hk.trans_le hle), hbyte k hk]

/-- R51: the instruction fetched is the one whose encoding stands in memory at the program counter. -/
theorem State.fetch_eq_ok_iff {i : Instr} : s.fetch = .ok i ↔ s.HoldsAtPc (encode i) := by
  refine ⟨State.holdsAtPc_of_fetch_ok, fun h => ?_⟩
  obtain ⟨rest, hbytes⟩ := h.prefix_fetchBytes (encode_length_le i)
  simp [State.fetch, ← hbytes, decode_encode_append i rest]

/-- Bytes placed at the program counter stand there, if all of them have an address. -/
theorem State.holdsAtPc_placeAtPc {bytes : List Byte} (h : s.pc.toNat + bytes.length ≤ 256) :
    (s.placeAtPc bytes).HoldsAtPc bytes := by
  refine ⟨h, fun k hk => ?_⟩
  simp [State.placeAtPc, Memory.get_place bytes _ _ _ h, hk]

/-- R68: the first byte fetched is the byte at the program counter. -/
theorem State.fetchBytes_head? (h : s.pc.toNat ≤ 255) : s.fetchBytes.head? = some (s.mem.get s.pc.toNat) := by
  have hpos : 0 < s.fetchBytes.length := by rw [State.fetchBytes_length]; omega
  rw [List.head?_eq_getElem?, List.getElem?_eq_getElem hpos, State.fetchBytes_getElem s hpos, Nat.add_zero]

/-- Settles O7: the placed bytes stand at the program counter, and a stored byte is read back there. -/
theorem fetchSeesEarlierWrites : Obligations.FetchSeesEarlierWrites := by
  refine ⟨fun s i hin => State.fetch_eq_ok_iff.mpr (State.holdsAtPc_placeAtPc hin), fun s a v hpc => ?_⟩
  have ha : (s.store a v).pc.toNat = a.toNat := by rw [State.store_pc, hpc]; exact addr9_toNat a
  rw [State.fetchBytes_head? (ha ▸ Nat.le_of_lt_succ a.isLt), ha, State.store_mem, Memory.get_set, if_pos rfl]

end Sys2Proof.Machine

/-! ## Proofs: memory after a boot -/

namespace Sys2Proof.Machine

/-- R47, R129: a loaded image is read at the low addresses, and above it what stood before. -/
theorem Memory.get_place_image {values : List Nat} (m : Memory) (hlen : values.length ≤ 256)
    (hbyte : ∀ v ∈ values, v ≤ 255) (k : Nat) :
    ((m.place 0 (values.map (BitVec.ofNat 8))).get k).toNat =
      if h : k < values.length then values[k] else (m.get k).toNat := by
  rw [Memory.get_place _ _ _ _ (by simpa [Config.memSize] using hlen), if_pos k.zero_le, Nat.sub_zero]
  split
  · next hk =>
    have hv := hbyte values[k] (List.getElem_mem hk)
    simp only [List.getElem?_map, List.getElem?_eq_getElem hk, Option.map_some, Option.getD_some, BitVec.toNat_ofNat]
    omega
  · next hk => simp [List.getElem?_eq_none (Nat.le_of_not_lt hk)]

/-- Settles O53: a boot resets flags and output over the loaded memory. -/
theorem bootKeepsMemTail : Obligations.BootKeepsMemTail := by
  intro values s t hboot
  obtain ⟨⟨hlen, hbyte⟩, rfl⟩ := boot_eq_some.mp hboot
  exact ⟨s.mem.get_place_image hlen hbyte, rfl, rfl⟩

end Sys2Proof.Machine

/-! ## Proofs: the encoding -/

namespace Sys2Proof

/-- Settles O1: what decodes is an encoding, and the round trip of every instruction is the converse. -/
theorem decodeInvertsEncodeBothWays : Obligations.DecodeInvertsEncodeBothWays :=
  fun _ i rest => ⟨eq_encode_append_of_decode_ok, fun h => h ▸ decode_encode_append i rest⟩

/-- Settles O2: the eight words are encodings, which the round trip decodes; the map has no row for 0xA3. -/
theorem specWordsDecode : Obligations.SpecWordsDecode :=
  ⟨decode_encode_append .hlt [0xFF], decode_encode_append (.ldi 0 8) [], decode_encode_append (.prn 0) [],
    decode_encode_append (.mul 0 1) [], decode_encode_append (.push 7) [], decode_encode_append (.call 1) [],
    decode_encode_append (.cmp 3 3) [], decode_encode_append (.jne 3) [], rfl⟩

/-! ### The bits of an opcode (R63) -/

/-- Bits 7:6 count the operand bytes. -/
theorem opcodeOf_toNat_div_64 (i : Instr) : (opcodeOf i).toNat / 64 = (operandsOf i).length := by
  cases i <;> simp [opcodeOf, operandsOf]

/-- Bit 5 marks the two-register instructions of the ALU and the comparator. -/
theorem opcodeOf_bit5_iff (i : Instr) :
    (opcodeOf i).getLsbD 5 = true ↔ ∃ a b, i = .add a b ∨ i = .sub a b ∨ i = .mul a b ∨ i = .cmp a b := by
  cases i with
  | add a b | sub a b | mul a b | cmp a b => exact iff_of_true (by simp [opcodeOf]) ⟨a, b, by simp⟩
  | _ => exact iff_of_false (by simp [opcodeOf]) (by simp)

/-- Bit 4 marks the instructions that set the program counter. -/
theorem opcodeOf_bit4_iff (i : Instr) :
    (opcodeOf i).getLsbD 4 = true ↔ i = .ret ∨ ∃ r, i = .call r ∨ i = .jmp r ∨ i = .jeq r ∨ i = .jne r := by
  cases i with
  | ret => exact iff_of_true (by simp [opcodeOf]) (.inl rfl)
  | call r | jmp r | jeq r | jne r => exact iff_of_true (by simp [opcodeOf]) (.inr ⟨r, by simp⟩)
  | _ => exact iff_of_false (by simp [opcodeOf]) (by simp)

/-- Settles O4: the three patterns, each by its own lemma. -/
theorem opcodeBitsCountOperands : Obligations.OpcodeBitsCountOperands :=
  fun i => ⟨opcodeOf_toNat_div_64 i, opcodeOf_bit5_iff i, opcodeOf_bit4_iff i⟩

end Sys2Proof

/-! ## Proofs: the unknown opcode -/

namespace Sys2Proof.Machine

variable {s t : State} {i : Instr}

/-- R69, R106: a fetch finds an unknown opcode exactly where the byte at the program counter exists and is no opcode. -/
theorem State.fetch_eq_unknownOpcode_iff {b : Byte} :
    s.fetch = .error (.unknownOpcode b) ↔
      s.pc.toNat ≤ 255 ∧ s.mem.get s.pc.toNat ∉ opcodeBytes ∧ b = s.mem.get s.pc.toNat := by
  constructor
  · intro h
    rcases State.fetch_error_cases h with ⟨-, he⟩ | ⟨hpc, hunknown, he⟩ | ⟨k, -, -, -, -, he⟩ <;> cases he
    exact ⟨hpc, hunknown, rfl⟩
  · rintro ⟨hpc, hunknown, rfl⟩
    cases hfetch : s.fetch with
    | ok i =>
      have hknown := opcodeOf_mem_opcodeBytes i
      rw [← (State.holdsAtPc_of_fetch_ok hfetch).opcode_eq] at hknown
      exact absurd hknown hunknown
    | error e =>
      rcases State.fetch_error_cases hfetch with ⟨hout, -⟩ | ⟨-, -, rfl⟩ | ⟨k, -, -, -, hknown, -⟩
      · omega
      · rfl
      · exact absurd hknown hunknown

/-- R71, R94: the faults an instruction itself takes are accesses out of bounds. -/
theorem Effect.fault_kind (h : Effect s i t) (hrun : s.status = .running) {r : FaultRecord}
    (hr : t.status = .faulted r) : r.kind = .outOfBoundsRegister ∨ r.kind = .outOfBoundsMemory := by
  rcases h.status_cases with ⟨-, rfl⟩ | ⟨b, -, rfl⟩ | ⟨c, -, -, rfl⟩ | ⟨-, hkept⟩
  · cases hr
  · cases hr; exact .inl rfl
  · cases hr; exact .inr rfl
  · rw [hkept, hrun] at hr; cases hr

/-- Settles O12: the fault is that of a fetch that finds an unknown opcode, and no other failed fetch, nor an
instruction, takes it. -/
theorem unknownOpcodeFaults : Obligations.UnknownOpcodeFaults := by
  refine ⟨by decide, fun s hrun hpc hunknown => ?_, fun s t r hstep hr hkind => ?_⟩
  · exact step_of_fetch_error hrun (State.fetch_eq_unknownOpcode_iff.mpr ⟨hpc, hunknown, rfl⟩)
  · rcases step_effect hstep with ⟨e, he, rfl⟩ | ⟨i, -, heff⟩
    · cases e with
      | unknownOpcode b =>
        obtain ⟨hpc, hunknown, -⟩ := State.fetch_eq_unknownOpcode_iff.mp he
        exact ⟨hpc, hunknown⟩
      | noOpcode | missingOperand => cases hr; cases hkind
    · rcases heff.fault_kind (step_next hstep).1 hr with hk | hk <;> cases hk ▸ hkind

end Sys2Proof.Machine

/-! ## Proofs: when a step exists -/

namespace Sys2Proof.Machine

variable {s t : State}

/-- R67, R76: HALTED is a stop. -/
theorem step_of_halted (h : s.status = .halted) : step s = .fault .halted := by
  simp [step, State.stopped, h]

/-- R67, R113: FAULTED is a stop, and shows its record. -/
theorem step_of_faulted {r : FaultRecord} (h : s.status = .faulted r) : step s = .fault (.faulted r) := by
  simp [step, State.stopped, h]

/-- R67: a next state exists exactly when RUNNING, whether the fetch then fails or gives an instruction. -/
theorem exists_step_iff_running : (∃ t, step s = .next t) ↔ s.status = .running := by
  refine ⟨fun ⟨_, h⟩ => (step_next h).1, fun hrun => ?_⟩
  cases hfetch : s.fetch with
  | error e => exact ⟨_, step_of_fetch_error hrun hfetch⟩
  | ok i => rw [step_of_fetch_ok hrun hfetch]; exact exec_total i s

/-- Settles O8: the equivalence, and the two stops. -/
theorem stepExistsExactlyWhenRunning : Obligations.StepExistsExactlyWhenRunning :=
  ⟨fun _ => exists_step_iff_running, fun _ => step_of_halted, fun _ _ => step_of_faulted⟩

end Sys2Proof.Machine

/-! ## Proofs: runs -/

namespace Sys2Proof.Machine

variable {s t u : State} {k : Nat}

/-- A run of one more step begins with that step. -/
theorem runSteps_succ_of_step (h : step s = .next t) : runSteps (k + 1) s = runSteps k t := by
  simp [runSteps, h]

/-- A run of one more step that answers a state began with a step. -/
theorem step_of_runSteps_succ (h : runSteps (k + 1) s = .next u) :
    ∃ t, step s = .next t ∧ runSteps k t = .next u := by
  cases hstep : step s with
  | next t => exact ⟨t, rfl, runSteps_succ_of_step hstep ▸ h⟩
  | fault | refused => simp [runSteps, hstep] at h

/-- A run of one more step ends with the step of the state reached before. -/
theorem runSteps_succ_of_runSteps (h : runSteps k s = .next t) : runSteps (k + 1) s = step t := by
  induction k generalizing s with
  | zero =>
    cases h
    cases hstep : step t <;> simp [runSteps, hstep]
  | succ k ih =>
    obtain ⟨v, hstep, hrun⟩ := step_of_runSteps_succ h
    rw [runSteps_succ_of_step hstep, ih hrun]

/-- What every step keeps, every run keeps. -/
theorem runSteps_keeps {P : State → Prop} (hkeep : ∀ s t, P s → step s = .next t → P t) (hs : P s)
    (h : runSteps k s = .next t) : P t := by
  induction k generalizing s with
  | zero => cases h; exact hs
  | succ k ih =>
    obtain ⟨v, hstep, hrun⟩ := step_of_runSteps_succ h
    exact ih (hkeep s v hs hstep) hrun

/-- R33: a step only appends to the output. -/
theorem step_out_prefix (h : step s = .next t) : s.out <+: t.out := by
  rcases outputGrowsOnlyByPrn s t h with ⟨-, hout, -⟩ | ⟨r, -, -, -, -, hout, -⟩ <;> rw [hout]
  exact List.prefix_append _ _

/-- Settles O9: the run goes on with the step of its state, which exists exactly when RUNNING. -/
theorem runGoesOnExactlyWhileRunning : Obligations.RunGoesOnExactlyWhileRunning := by
  intro k s t h
  rw [runSteps_succ_of_runSteps h]
  exact exists_step_iff_running

/-- Settles O43: every step keeps "the invariant holds, and the output begins with that of `s`". -/
theorem runKeepsInvariantAndOutput : Obligations.RunKeepsInvariantAndOutput := by
  intro k s t hinv hrun
  refine runSteps_keeps (P := fun v => v.Inv ∧ s.out <+: v.out) ?_ ⟨hinv, List.prefix_rfl⟩ hrun
  rintro v w ⟨hv, hout⟩ hstep
  exact ⟨stepKeepsInvariant v w hv hstep, hout.trans (step_out_prefix hstep)⟩

end Sys2Proof.Machine

/-! ## Proofs: fetch and operand checks in the step -/

namespace Sys2Proof.Machine

variable {s : State}

/-- Settles O5: such bytes are fetched as `i`. -/
theorem stepRunsDecodedInstruction : Obligations.StepRunsDecodedInstruction :=
  fun _ _ _ hrun hdec => step_of_fetch_ok hrun (by simp [State.fetch, hdec])

/-- Settles O6: an encoding that stands at the program counter is fetched as its instruction. -/
theorem stepRunsEncodedInstructionAtPc : Obligations.StepRunsEncodedInstructionAtPc :=
  fun _ _ hrun hat => step_of_fetch_ok hrun (State.fetch_eq_ok_iff.mpr hat)

/-- R68: a fetch above address 255 finds no opcode. -/
theorem State.fetch_eq_noOpcode (h : 255 < s.pc.toNat) : s.fetch = .error .noOpcode := by
  have hbytes : s.fetchBytes = [] := List.eq_nil_of_length_eq_zero (by rw [State.fetchBytes_length]; omega)
  simp [State.fetch, hbytes, decode]

/-- Settles O10: the first byte fetched, and the fault of a fetch without one. -/
theorem opcodeFetchReadsPcOrFaults : Obligations.OpcodeFetchReadsPcOrFaults := by
  refine ⟨fun s => State.fetchBytes_head?, fun s hrun hpc => ?_⟩
  rw [step_of_fetch_error hrun (State.fetch_eq_noOpcode (by simp [hpc])), State.raiseFetch, hpc]
  rfl

/-- R70: where the operands of a known opcode, counted by its bits 7:6 (R63), reach address 256, the fetch misses the
operand there. -/
theorem State.fetch_eq_missingOperand {k : Nat} (hpos : 1 ≤ k) (hpc : s.pc.toNat + k = 256)
    (hknown : s.mem.get s.pc.toNat ∈ opcodeBytes) (hcount : k ≤ (s.mem.get s.pc.toNat).toNat / 64) :
    s.fetch = .error (.missingOperand (s.mem.get s.pc.toNat) k) := by
  cases hfetch : s.fetch with
  | ok i =>
    have hat := State.holdsAtPc_of_fetch_ok hfetch
    have hin := hat.pc_add_length_le
    rw [hat.opcode_eq, opcodeOf_toNat_div_64] at hcount
    omega
  | error e =>
    rcases State.fetch_error_cases hfetch with ⟨hout, -⟩ | ⟨-, hunknown, -⟩ | ⟨j, -, -, hj, -, rfl⟩
    · omega
    · exact absurd hknown hunknown
    · obtain rfl : j = k := by omega
      rfl

/-- R70, R108: a RUNNING step at such an opcode takes the memory fault at address 256. -/
theorem step_missingOperand {a k : Nat} (hrun : s.status = .running) (ha : s.pc.toNat = a) (hpos : 1 ≤ k)
    (hpc : a + k = 256) (hknown : s.mem.get a ∈ opcodeBytes) (hcount : k ≤ (s.mem.get a).toNat / 64) :
    step s = .next (s.asFaulted .outOfBoundsMemory (some (s.mem.get a)) 256) := by
  subst ha
  have hinfo : s.pc + BitVec.ofNat 9 k = 256 := by bv_omega
  rw [step_of_fetch_error hrun (State.fetch_eq_missingOperand hpos hpc hknown hcount), State.raiseFetch, hinfo]
  rfl

/-- Settles O11: the listed opcodes are known and their bits count at least one operand, or two. -/
theorem operandFetchPastMemoryFaults : Obligations.OperandFetchPastMemoryFaults := by
  have hasOperands : ∀ b ∈ ([0x82, 0x47, 0xA0, 0xA1, 0xA2, 0x45, 0x46, 0x50, 0xA7, 0x54, 0x55, 0x56] : List Byte),
      b ∈ opcodeBytes ∧ 1 ≤ b.toNat / 64 := by decide
  have hasTwo : ∀ b ∈ ([0x82, 0xA0, 0xA1, 0xA2, 0xA7] : List Byte), b ∈ opcodeBytes ∧ 2 ≤ b.toNat / 64 := by decide
  refine ⟨fun s hrun hpc hop => ?_, fun s hrun hpc hop => ?_⟩
  · obtain ⟨hknown, hcount⟩ := hasOperands _ hop
    exact step_missingOperand hrun (by simp [hpc]) le_rfl rfl hknown hcount
  · obtain ⟨hknown, hcount⟩ := hasTwo _ hop
    exact step_missingOperand hrun (by simp [hpc]) one_le_two rfl hknown hcount

/-- Settles O13: `exec_registerFault`, the fault written out. -/
theorem registerOperandOutOfRangeFaults : Obligations.RegisterOperandOutOfRangeFaults :=
  fun _ _ _ h => exec_registerFault h

/-- R17: a well-formed instruction has no register operand above 7. -/
theorem wellFormed_iff_find?_eq_none (i : Instr) :
    i.wellFormed = true ↔ i.regOperands.find? (fun b => decide (7 < b.toNat)) = none := by
  simp [Instr.wellFormed, List.find?_eq_none, Nat.lt_succ_iff]

/-- Settles O17: `exec` answers, and of the ways `Effect.status_cases` lists the two faults are excluded. -/
theorem wellFormedInstructionCompletes : Obligations.WellFormedInstructionCompletes := by
  intro i s hwf hcall
  obtain ⟨t, ht⟩ := exec_total i s
  refine ⟨t, ht, ?_⟩
  rcases (exec_effect ht).status_cases with ⟨hi, rfl⟩ | ⟨b, hb, -⟩ | ⟨r, hi, hret, -⟩ | hkept
  · exact .inl ⟨hi, rfl⟩
  · rw [(wellFormed_iff_find?_eq_none i).mp hwf] at hb; cases hb
  · have := hcall _ hi; omega
  · exact .inr hkept

end Sys2Proof.Machine

/-! ## Proofs: HLT, LDI and PRN -/

namespace Sys2Proof.Machine

/-- R71: a register operand above 7 is the fault of an instruction that has no other. -/
theorem exec_eq_raiseReg {i : Instr} {b : Byte} (hops : i.regOperands = [b]) (hb : 7 < b.toNat) (s : State) :
    exec i s = .next (s.raiseReg (opcodeOf i) b) :=
  exec_registerFault (by simp [hops, hb])

/-- R70, R108: a RUNNING step at the opcode of an instruction whose operands do not all lie in memory takes the memory
fault at address 256, whatever its operand bytes hold. -/
theorem step_operandsPastMemory {s : State} (i : Instr) (hrun : s.status = .running) (hpc : s.pc.toNat ≤ 255)
    (hout : 255 < s.pc.toNat + (operandsOf i).length) (hop : s.mem.get s.pc.toNat = opcodeOf i) :
    step s = .next (s.asFaulted .outOfBoundsMemory (some (opcodeOf i)) 256) := by
  have hcount : 256 - s.pc.toNat ≤ (s.mem.get s.pc.toNat).toNat / 64 := by
    rw [hop, opcodeOf_toNat_div_64]; omega
  rw [step_missingOperand hrun rfl (by omega) (by omega) (hop ▸ opcodeOf_mem_opcodeBytes i) hcount, hop]

/-- Settles O18: HLT's arm is `State.halt`, which sets only the status. -/
theorem hltHaltsInPlace : Obligations.HltHaltsInPlace :=
  fun _ => Effect.hlt.exec_eq

/-- Settles O19: LDI's effect, its frame by the table of written registers, and the two faults. -/
theorem ldiLoadsImmediate : Obligations.LdiLoadsImmediate := by
  refine ⟨fun _ _ => rfl, fun r i s => ?_, fun r i s hr => exec_eq_raiseReg rfl hr s, fun s hrun hpc hop => ?_⟩
  · have heff := Effect.ldi (s := s) r i
    have hregs := heff.keepsRegsBut_writesOf
    rw [writesOf, regList_toByte] at hregs
    exact ⟨_, heff.exec_eq, by simp, rfl, hregs, fun _ => rfl, rfl, rfl, rfl⟩
  · refine step_operandsPastMemory (.ldi 0 0) hrun ?_ ?_ hop
    · rcases hpc with h | h <;> simp [h]
    · rcases hpc with h | h <;> simp [h, operandsOf]

/-- Settles O20: PRN's effect, its frame by the table of written registers, and the two faults. -/
theorem prnEmitsRegister : Obligations.PrnEmitsRegister := by
  refine ⟨fun _ => rfl, fun r s => ?_, fun r s hr => exec_eq_raiseReg rfl hr s, fun s hrun hpc hop => ?_⟩
  · have heff := Effect.prn (s := s) r
    exact ⟨_, heff.exec_eq, rfl, rfl, heff.keepsRegsBut_writesOf, fun _ => rfl, rfl, rfl⟩
  · refine step_operandsPastMemory (.prn 0) hrun ?_ ?_ ?_
    · simp [hpc]
    · simp [hpc, operandsOf]
    · simpa [hpc, opcodeOf] using hop

end Sys2Proof.Machine

/-! ## Proofs: the ALU and its unsupported request -/

namespace Sys2Proof.Machine

variable {s t : State}

/-- R86, R107: the unsupported request takes its fault once both register operands are checked. -/
theorem execAlu_other (opcode : Byte) (a b : Reg) (s : State) :
    execAlu .other opcode a.toByte b.toByte s =
      .next (s.raise .unsupportedALUOperation (some opcode) (addr9 opcode)) :=
  withRegs_toByte _ _ _ _ _

/-- R68 to R70: the faults a failed fetch takes. -/
theorem State.raiseFetch_fault_kind {e : DecodeError} {r : FaultRecord} (hr : (s.raiseFetch e).status = .faulted r) :
    r.kind = .unknownOpcode ∨ r.kind = .outOfBoundsMemory := by
  cases e with
  | unknownOpcode => cases hr; exact .inl rfl
  | noOpcode | missingOperand => cases hr; exact .inr rfl

/-- R106, R108: every fault a step takes is of one of these kinds. -/
theorem step_fault_kind {r : FaultRecord} (h : step s = .next t) (hr : t.status = .faulted r) :
    r.kind = .unknownOpcode ∨ r.kind = .outOfBoundsMemory ∨ r.kind = .outOfBoundsRegister := by
  rcases step_effect h with ⟨e, -, rfl⟩ | ⟨i, -, heff⟩
  · exact (State.raiseFetch_fault_kind hr).imp_right .inl
  · exact .inr (heff.fault_kind (step_next h).1 hr).symm

/-- Settles O16: the ALU's answer to the request, and the kinds of fault a step takes, which are others. -/
theorem unsupportedAluOperationNeverTaken : Obligations.UnsupportedAluOperationNeverTaken := by
  refine ⟨execAlu_other, fun s t r hstep hr => ?_⟩
  rcases step_fault_kind hstep hr with hk | hk | hk <;> simp [hk]

/-- R79, R82: an instruction of three bytes whose effect is one register write completes with it, and keeps the rest. -/
theorem Effect.exec_writeReg {i : Instr} {a : Reg} {v : Byte} (h : Effect s i ((s.writeReg a v).advance 3)) :
    ∃ t, exec i s = .next t ∧ t.readReg a = v ∧ t.pc = s.pc + 3 ∧ KeepsRegsBut s t [a] ∧ KeepsMemory s t ∧
      t.flags = s.flags ∧ t.status = s.status ∧ t.out = s.out := by
  have hregs : KeepsRegsBut s ((s.writeReg a v).advance 3) [a] := fun q hq => by
    simp [List.ne_of_not_mem_cons hq]
  exact ⟨_, h.exec_eq, by simp, rfl, hregs, fun _ => rfl, rfl, rfl, rfl⟩

/-- R7: on a natural number, `wrap8` is the remainder modulo 256. -/
theorem wrap8_natCast_toNat (n : Nat) : (wrap8 n).toNat = n % 256 := by
  exact_mod_cast wrap8_toNat n

/-- Settles O21: ADD's effect is one register write, of the wrapped sum. -/
theorem addWritesSumModulo256 : Obligations.AddWritesSumModulo256 := by
  intro a b s
  obtain ⟨t, hexec, hsum, hframe⟩ := (Effect.add (s := s) a b).exec_writeReg
  rw [← Nat.cast_add] at hsum
  exact ⟨t, hexec, hsum ▸ wrap8_natCast_toNat _, hframe⟩

/-- Settles O22: SUB's effect is one register write, of the wrapped difference, which may be below 0. -/
theorem subWritesDifferenceModulo256 : Obligations.SubWritesDifferenceModulo256 := by
  intro a b s
  obtain ⟨t, hexec, hdiff, hframe⟩ := (Effect.sub (s := s) a b).exec_writeReg
  exact ⟨t, hexec, hdiff ▸ wrap8_toNat _, hframe⟩

/-- Settles O23: MUL's effect is one register write, of the wrapped product. -/
theorem mulWritesProductModulo256 : Obligations.MulWritesProductModulo256 := by
  intro a b s
  obtain ⟨t, hexec, hprod, hframe⟩ := (Effect.mul (s := s) a b).exec_writeReg
  rw [← Nat.cast_mul] at hprod
  exact ⟨t, hexec, hprod ▸ wrap8_natCast_toNat _, hframe⟩

end Sys2Proof.Machine

/-! ## Proofs: PUSH and POP -/

namespace Sys2Proof.Machine

/-- Settles O24: PUSH's effect, with the register read after the decrement, and its frame by the table of written registers. -/
theorem pushStoresAtDecrementedSp : Obligations.PushStoresAtDecrementedSp := by
  intro r s
  have heff := Effect.push (s := s) r
  refine ⟨_, heff.exec_eq, s.pushAddr_toNat, by simp, ?_, fun x hx => ?_, rfl, heff.keepsRegsBut_writesOf, rfl, rfl, rfl⟩
  · simp
  · simp [hx]

/-- Settles O25: POP's effect, with the increment applied to the SP it may itself have loaded, and its frame by the table
of written registers. -/
theorem popLoadsThenIncrementsSp : Obligations.PopLoadsThenIncrementsSp := by
  intro r s
  have heff := Effect.pop (s := s) r
  have hregs := heff.keepsRegsBut_writesOf
  rw [writesOf, regList_toByte] at hregs
  refine ⟨_, heff.exec_eq, fun hr => ⟨?_, ?_⟩, fun hr => ?_, rfl, hregs, fun _ => rfl, rfl, rfl, rfl⟩
  · simp [hr, State.load_eq]
  · simp [State.popSp_toNat, hr.symm]
  · simp [State.popSp_toNat, hr, State.load_eq]

/-- R89, R90: the increment of a pop undoes the decrement of a push, wrapping included. -/
theorem State.pushAddr_succ_mod (s : State) : (s.pushAddr.toNat + 1) % 256 = (s.readReg .r7).toNat := by
  have := (s.readReg .r7).isLt
  rw [State.pushAddr_toNat]
  omega

/-- A pop from a state whose SP is as after a push leaves SP as before that push. -/
theorem State.popSp_of_readReg_eq_pushAddr {s t : State} (h : t.readReg .r7 = s.pushAddr) :
    t.popSp = s.readReg .r7 :=
  BitVec.eq_of_toNat_eq (by rw [State.popSp_toNat, h, State.pushAddr_succ_mod])

/-- Settles O47: the pushed cell is the one popped, and for registers what PUSH does (O24) composed with what POP does
(O25). -/
theorem pushThenPopRestores : Obligations.PushThenPopRestores := by
  refine ⟨fun s v => ⟨?_, ?_, ?_⟩, fun r s t hpush => ?_⟩
  · simp [State.popValue, State.load_eq]
  · have hsp : (s.pushValue v).readReg .r7 = s.pushAddr := by simp
    simpa [State.popValue] using State.popSp_of_readReg_eq_pushAddr hsp
  · simp [State.popValue]
  · obtain ⟨t', hexec, -, hsp, hbyte, -, -, hkeep, -⟩ := pushStoresAtDecrementedSp r s
    obtain rfl : t' = t := Host.Outcome.next.inj (hexec.symm.trans hpush)
    obtain ⟨u, hpop, hother, hself, -, hkeep', -⟩ := popLoadsThenIncrementsSp r t'
    rw [hsp, hbyte, State.pushAddr_succ_mod] at hother
    rw [hsp, hbyte] at hself
    have hspBack : u.readReg .r7 = s.readReg .r7 := by
      apply BitVec.eq_of_toNat_eq
      by_cases hr : r = .r7
      · rw [hself hr, if_pos hr, State.pushAddr_succ_mod]
      · exact (hother hr).2
    refine ⟨u, hpop, RegFile.ext_get fun q => ?_⟩
    by_cases hq : q = .r7
    · exact hq ▸ hspBack
    by_cases hqr : q = r
    · subst hqr
      exact (hother hq).1.trans (if_neg hq)
    · exact (hkeep' q (by simp [hq, hqr])).trans (hkeep q (by simp [hq]))

end Sys2Proof.Machine

/-! ## Proofs: CALL and RET -/

namespace Sys2Proof.Machine

/-- Settles O26: CALL's effect, with the target read after the push, and its frame by the table of written registers. -/
theorem callPushesReturnAddressAndJumps : Obligations.CallPushesReturnAddressAndJumps := by
  intro r s hpc
  have hret : s.pc.toNat + 2 ≤ 255 := by omega
  have heff := Effect.call r hret
  refine ⟨_, heff.exec_eq, s.pushAddr_toNat, by simp, ?_, fun x hx => ?_, ?_, heff.keepsRegsBut_writesOf, rfl, rfl, rfl⟩
  · simpa using Nat.lt_succ_of_le hret
  · simp [hx]
  · by_cases hr : r = .r7 <;> simp [hr]

/-- Settles O27: the return address 256 is no memory address. -/
theorem callAtAddress254Faults : Obligations.CallAtAddress254Faults := by
  intro r s hpc
  have hret : s.pc.toNat + 2 = 256 := by simp [hpc]
  rw [(Effect.callFault r (by omega)).exec_eq, hret]
  rfl

/-- Settles O28: RET's effect, and its frame by the table of written registers. -/
theorem retPopsProgramCounter : Obligations.RetPopsProgramCounter := by
  intro s
  have heff := Effect.ret (s := s)
  refine ⟨_, heff.exec_eq, ?_, ?_, heff.keepsRegsBut_writesOf, fun _ => rfl, rfl, rfl, rfl⟩
  · simp [State.load_eq]
  · simp [State.popSp_toNat]

/-- Settles O48: the return address CALL pushes (O26) is the byte RET pops (O28), and the increment of SP undoes the
decrement. -/
theorem callThenRetResumes : Obligations.CallThenRetResumes := by
  intro r s t u hpc hcall hsp hmem
  obtain ⟨t', hexec, -, hspPush, hbyte, -⟩ := callPushesReturnAddressAndJumps r s hpc
  obtain rfl : t' = t := Host.Outcome.next.inj (hexec.symm.trans hcall)
  obtain ⟨w, hret, hpcBack, hspBack, -⟩ := retPopsProgramCounter u
  rw [hsp, hmem, hspPush, hbyte] at hpcBack
  rw [hsp, hspPush, State.pushAddr_succ_mod] at hspBack
  exact ⟨w, hret, hpcBack, BitVec.eq_of_toNat_eq hspBack⟩

end Sys2Proof.Machine

/-! ## Proofs: CMP and the jumps -/

namespace Sys2Proof.Machine

/-- Settles O30: JMP's effect, its frame by the table of written registers, and the two faults. -/
theorem jmpSetsPcFromRegister : Obligations.JmpSetsPcFromRegister := by
  refine ⟨fun _ => rfl, fun r s => ?_, fun r s hr => exec_eq_raiseReg rfl hr s, fun s hrun hpc hop => ?_⟩
  · have heff := Effect.jmp (s := s) r
    exact ⟨_, heff.exec_eq, addr9_toNat _, heff.keepsRegsBut_writesOf, fun _ => rfl, rfl, rfl, rfl⟩
  · refine step_operandsPastMemory (.jmp 0) hrun ?_ ?_ ?_
    · simp [hpc]
    · simp [hpc, operandsOf]
    · simpa [hpc, opcodeOf] using hop

/-- Settles O29: CMP's effect, with each flag the decision of its comparison, and its frame by the table of written
registers. -/
theorem cmpSetsFlagsByUnsignedComparison : Obligations.CmpSetsFlagsByUnsignedComparison := by
  intro a b s
  have heff := Effect.cmp (s := s) a b
  exact ⟨_, heff.exec_eq, decide_eq_true_iff, decide_eq_true_iff, decide_eq_true_iff, rfl,
    heff.keepsRegsBut_writesOf, fun _ => rfl, rfl, rfl⟩

/-- R101, R102: an instruction whose effect is a conditional jump completes with it, and changes nothing but the program
counter. -/
theorem Effect.exec_jumpIf {s : State} {i : Instr} {taken : Bool} {r : Reg} (h : Effect s i (s.jumpIf taken r)) :
    ∃ t, exec i s = .next t ∧ (taken = true → t.pc.toNat = (s.readReg r).toNat) ∧ (taken = false → t.pc = s.pc + 2) ∧
      KeepsRegsBut s t [] ∧ KeepsMemory s t ∧ t.flags = s.flags ∧ t.status = s.status ∧ t.out = s.out := by
  refine ⟨_, h.exec_eq, ?_, ?_, fun q _ => s.jumpIf_readReg taken r q, fun a => by rw [State.jumpIf_mem],
    s.jumpIf_flags taken r, s.jumpIf_status taken r, s.jumpIf_out taken r⟩
  · rintro rfl
    exact addr9_toNat _
  · rintro rfl
    rfl

/-- Settles O31: JEQ is the conditional jump on E. -/
theorem jeqFollowsEqualFlag : Obligations.JeqFollowsEqualFlag :=
  fun r _ => (Effect.jeq r).exec_jumpIf

/-- Settles O32: JNE is the conditional jump on the negation of E. -/
theorem jneFollowsEqualFlag : Obligations.JneFollowsEqualFlag := by
  intro r s
  obtain ⟨t, hexec, htaken, hnot, hframe⟩ := (Effect.jne (s := s) r).exec_jumpIf
  rw [Bool.not_eq_true'] at htaken
  rw [Bool.not_eq_false'] at hnot
  exact ⟨t, hexec, htaken, hnot, hframe⟩

/-- Settles O49: after CMP (O29) E says whether the two registers are equal and every register is as before, and the
jumps follow E (O31, O32). -/
theorem branchesFollowComparison : Obligations.BranchesFollowComparison := by
  intro a b r s t hcmp
  obtain ⟨t', hexec, hE, -, -, -, hregs, -⟩ := cmpSetsFlagsByUnsignedComparison a b s
  obtain rfl : t' = t := Host.Outcome.next.inj (hexec.symm.trans hcmp)
  obtain ⟨u, hjeq, hjeqTaken, hjeqNot, -⟩ := jeqFollowsEqualFlag r t'
  obtain ⟨w, hjne, hjneTaken, hjneNot, -⟩ := jneFollowsEqualFlag r t'
  rw [hregs r List.not_mem_nil] at hjeqTaken hjneTaken
  refine ⟨u, w, hjeq, hjne, fun heq => ?_, fun hne => ?_⟩
  · have hset : t'.flags.E = true := hE.mpr (congrArg BitVec.toNat heq)
    exact ⟨hjeqTaken hset, hjneNot hset⟩
  · have hclear : t'.flags.E = false := Bool.eq_false_iff.mpr fun hset => hne (BitVec.eq_of_toNat_eq (hE.mp hset))
    exact ⟨hjeqNot hclear, hjneTaken hclear⟩

end Sys2Proof.Machine

/-! ## Proofs: a fault changes only the status -/

namespace Sys2Proof.Machine

variable {s t : State} {i : Instr}

/-- R110, R111: the status is all that taking a fault changes, and the record holds the program counter. -/
theorem step_fault_eq {r : FaultRecord} (h : step s = .next t) (hr : t.status = .faulted r) :
    t = { s with status := .faulted r } ∧ r.fpc = s.pc := by
  rcases step_effect h with ⟨e, -, rfl⟩ | ⟨i, -, heff⟩
  · cases e with
    | noOpcode | unknownOpcode | missingOperand => cases hr; exact ⟨rfl, rfl⟩
  · rcases heff.status_cases with ⟨-, rfl⟩ | ⟨b, -, rfl⟩ | ⟨c, -, -, rfl⟩ | ⟨-, hkept⟩
    · cases hr
    · cases hr; exact ⟨rfl, rfl⟩
    · cases hr; exact ⟨rfl, rfl⟩
    · rw [hkept, (step_next h).1] at hr; cases hr

/-- R132: the status ports of a FAULTED machine. -/
theorem State.statusPorts_of_faulted {r : FaultRecord} (h : s.status = .faulted r) :
    s.statusPorts = { halted := false, faulted := true, faultCode := r.kind.code, record := some r.ports,
                      flags := s.flags.bits } := by
  simp [State.statusPorts, h]

/-- Settles O15: `step_fault_eq`, the ports of a FAULTED machine, and the stop of `step` there. -/
theorem faultChangesOnlyStatus : Obligations.FaultChangesOnlyStatus := by
  intro s t r hstep hr
  obtain ⟨heq, hfpc⟩ := step_fault_eq hstep hr
  refine ⟨heq, hfpc, by rw [State.statusPorts_of_faulted hr], fun u hu => ?_⟩
  rw [step_of_faulted hr] at hu
  cases hu

end Sys2Proof.Machine

/-! ## Proofs: the status ports -/

namespace Sys2Proof.Machine

/-- R28: the layout of the flags, from the high bit down L, G, E. -/
theorem Flags.bits_getLsbD (f : Flags) :
    f.bits.getLsbD 2 = f.L ∧ f.bits.getLsbD 1 = f.G ∧ f.bits.getLsbD 0 = f.E := by
  have h : ∀ e l g : Bool, (⟨e, l, g⟩ : Flags).bits.getLsbD 2 = l ∧ (⟨e, l, g⟩ : Flags).bits.getLsbD 1 = g ∧
      (⟨e, l, g⟩ : Flags).bits.getLsbD 0 = e := by decide
  exact h f.E f.L f.G

theorem State.statusPorts_flags (s : State) : s.statusPorts.flags = s.flags.bits := by
  cases h : s.status <;> simp [State.statusPorts, h]

/-- R105: the code 0 is left for "no fault". -/
theorem FaultKind.code_ne_zero (k : FaultKind) : k.code ≠ 0 := by
  cases k <;> decide

/-- Settles O55: the ports by the three statuses, and the codes by the kind. -/
theorem statusPortsShowStatusAndRecord : Obligations.StatusPortsShowStatusAndRecord := by
  intro s
  refine ⟨?_, ?_, ?_, fun r hr => ?_, s.statusPorts_flags ▸ s.flags.bits_getLsbD⟩
  · cases h : s.status <;> simp [State.statusPorts, h]
  · cases h : s.status <;> simp [State.statusPorts, h]
  · cases h : s.status with
    | running | halted => simp [State.statusPorts, h]
    | faulted r =>
      rw [State.statusPorts_of_faulted h]
      exact iff_of_false r.kind.code_ne_zero fun hno => hno r rfl
  · rw [State.statusPorts_of_faulted hr]
    exact ⟨rfl, fun hk => hk ▸ rfl, fun hk => hk ▸ rfl, fun hk => hk ▸ rfl, fun hk => hk ▸ rfl⟩

end Sys2Proof.Machine

/-! ## Proofs: the opcode table of the claims and the instructions -/

namespace Sys2Proof

open Sys2Proof.Machine

/-- The row of an instruction's opcode counts its operand bytes and the registers among them (R56, R57). -/
theorem find?_opcodeRows_opcodeOf (i : Instr) :
    opcodeRows.find? (fun row => row.1 == opcodeOf i) =
      some (opcodeOf i, (operandsOf i).length, i.regOperands.length) := by
  cases i <;> rfl

theorem find?_opcodeRows_eq_none {b : Byte} (h : b ∉ opcodeBytes) :
    opcodeRows.find? (fun row => row.1 == b) = none := by
  refine List.find?_eq_none.mpr fun row hrow heq => h ?_
  exact List.mem_map.mpr ⟨row, hrow, by simpa using heq⟩

/-- The register operands come first (R56). -/
theorem regOperands_prefix_operandsOf (i : Instr) : i.regOperands <+: operandsOf i := by
  cases i <;> simp [Instr.regOperands, operandsOf]

theorem operandsOf_length_le (i : Instr) : (operandsOf i).length ≤ 2 :=
  Nat.le_of_succ_le_succ (encode_length_le i)

theorem toNat_div_64_of_encode_eq_cons {i : Instr} {opcode : Byte} {operands : List Byte}
    (h : encode i = opcode :: operands) : opcode.toNat / 64 = operands.length := by
  obtain ⟨rfl, rfl⟩ := List.cons_eq_cons.mp h
  exact opcodeOf_toNat_div_64 i

/-- A known opcode and as many bytes as it has operands (R63) are the encoding of an instruction (R57, R58). -/
theorem exists_encode_eq_cons {opcode : Byte} {operands : List Byte} (h : opcode ∈ opcodeBytes)
    (hlen : operands.length = opcode.toNat / 64) : ∃ i, encode i = opcode :: operands := by
  cases hmap : opcodeMap opcode with
  | none => exact absurd h ((opcodeMap_eq_none_iff opcode).mp hmap)
  | some shape =>
    have henc := opcodeMap_encodesAs hmap
    cases shape with
    | f0 i =>
      rw [toNat_div_64_of_encode_eq_cons henc] at hlen
      obtain rfl := List.eq_nil_of_length_eq_zero hlen
      exact ⟨i, henc⟩
    | f1 mk =>
      rw [toNat_div_64_of_encode_eq_cons (henc 0)] at hlen
      obtain ⟨op1, rfl⟩ := List.length_eq_one_iff.mp hlen
      exact ⟨mk op1, henc op1⟩
    | f2 mk =>
      rw [toNat_div_64_of_encode_eq_cons (henc 0 0)] at hlen
      obtain ⟨op1, op2, rfl⟩ := List.length_eq_two.mp hlen
      exact ⟨mk op1 op2, henc op1 op2⟩

theorem exists_opcodeOf_eq {b : Byte} (h : b ∈ opcodeBytes) : ∃ i, opcodeOf i = b := by
  obtain ⟨i, hi⟩ := exists_encode_eq_cons h (List.length_replicate (a := (0 : Byte)))
  exact ⟨i, List.head_eq_of_cons_eq hi⟩

end Sys2Proof

/-! ## Proofs: the order of faults -/

namespace Sys2Proof.Machine

variable {s t : State} {i : Instr}

/-! ### What `firstFault` answers, in the order of R112 -/

/-- R68: the opcode fetch comes first. -/
theorem firstFault_of_pc_out (h : 255 < s.pc.toNat) :
    firstFault s = some ⟨.outOfBoundsMemory, s.pc, none, s.pc⟩ :=
  if_pos h

/-- R69, R106: then the opcode, before any operand is looked at. -/
theorem firstFault_of_unknownOpcode (hpc : s.pc.toNat ≤ 255) (h : s.mem.get s.pc.toNat ∉ opcodeBytes) :
    firstFault s = some ⟨.unknownOpcode, s.pc, some (s.mem.get s.pc.toNat), addr9 (s.mem.get s.pc.toNat)⟩ := by
  simp only [firstFault, if_neg (Nat.not_lt.mpr hpc), find?_opcodeRows_eq_none h]
  rfl

/-- R70: then the operand fetch, whatever the operand bytes that exist hold. -/
theorem firstFault_of_operandsPastMemory (hpc : s.pc.toNat ≤ 255) (hop : s.mem.get s.pc.toNat = opcodeOf i)
    (hout : 255 < s.pc.toNat + (operandsOf i).length) :
    firstFault s = some ⟨.outOfBoundsMemory, s.pc, some (opcodeOf i), 256⟩ := by
  have hlen := operandsOf_length_le i
  simp only [firstFault, if_neg (Nat.not_lt.mpr hpc), hop, find?_opcodeRows_opcodeOf]
  by_cases h1 : 255 < s.pc.toNat + 1
  · exact if_pos ⟨by omega, h1⟩
  · rw [if_neg (by omega), if_pos (by omega)]

/-- The register operands are the bytes after the opcode. -/
theorem State.HoldsAtPc.regOperand_eq (h : s.HoldsAtPc (encode i)) {k : Nat} (hk : k < i.regOperands.length) :
    s.mem.get (s.pc.toNat + (k + 1)) = i.regOperands[k] := by
  have hpre := regOperands_prefix_operandsOf i
  have hk' : k < (operandsOf i).length := hk.trans_le hpre.length_le
  rw [h.2 (k + 1) (Nat.succ_lt_succ hk')]
  exact (hpre.getElem hk).symm

/-- R71, R94: then, with the whole instruction in memory, the first register operand above 7 comes before CALL's return address. -/
theorem firstFault_of_holdsAtPc (hat : s.HoldsAtPc (encode i)) :
    firstFault s =
      ((i.regOperands.find? fun b => decide (7 < b.toNat)).map fun b =>
        ⟨.outOfBoundsRegister, s.pc, some (opcodeOf i), addr9 b⟩).or
      (if opcodeOf i = 0x50 ∧ 255 < s.pc.toNat + 2 then
        some ⟨.outOfBoundsMemory, s.pc, some (opcodeOf i), 256⟩ else none) := by
  have hpc := hat.pc_add_length_le
  have hlen : i.regOperands.length ≤ 2 :=
    (regOperands_prefix_operandsOf i).length_le.trans (operandsOf_length_le i)
  have hbyte := fun k hk => hat.regOperand_eq (k := k) hk
  simp only [firstFault, hat.opcode_eq, find?_opcodeRows_opcodeOf]
  rw [if_neg (by omega), if_neg (by omega), if_neg (by omega)]
  generalize i.regOperands = regs at hlen hbyte ⊢
  match regs with
  | [] => simp
  | [a] =>
    have ha : s.mem.get (s.pc.toNat + 1) = a := hbyte 0 (by simp)
    by_cases h : 7 < a.toNat <;> simp [ha, h, addr9]
  | [a, b] =>
    have ha : s.mem.get (s.pc.toNat + 1) = a := hbyte 0 (by simp)
    have hb : s.mem.get (s.pc.toNat + 2) = b := hbyte 1 (by simp)
    by_cases h : 7 < a.toNat
    · simp [ha, h, addr9]
    · by_cases h' : 7 < b.toNat <;> simp [ha, hb, h, h', addr9]
  | _ :: _ :: _ :: _ => simp at hlen

/-! ### The step takes the first fault -/

/-- A known opcode whose operand bytes all lie in memory is, with them, an encoded instruction (R51, R63). -/
theorem State.exists_holdsAtPc (hknown : s.mem.get s.pc.toNat ∈ opcodeBytes)
    (hin : s.pc.toNat + (s.mem.get s.pc.toNat).toNat / 64 ≤ 255) : ∃ i, s.HoldsAtPc (encode i) := by
  obtain ⟨i, hi⟩ := exists_encode_eq_cons hknown
    (List.length_ofFn (f := fun k : Fin ((s.mem.get s.pc.toNat).toNat / 64) => s.mem.get (s.pc.toNat + (k + 1))))
  refine ⟨i, ?_⟩
  rw [hi]
  refine ⟨by simp only [List.length_cons, List.length_ofFn]; omega, fun k hk => ?_⟩
  cases k with
  | zero => rfl
  | succ k => simp

/-- R70: an operand that the fetch misses is one its opcode has. -/
theorem State.le_of_fetch_missingOperand {k : Nat} (hpc : s.pc.toNat + k = 256)
    (hknown : s.mem.get s.pc.toNat ∈ opcodeBytes) {e : DecodeError} (h : s.fetch = .error e) :
    k ≤ (s.mem.get s.pc.toNat).toNat / 64 := by
  by_contra hlt
  obtain ⟨i, hat⟩ := State.exists_holdsAtPc hknown (by omega)
  rw [State.fetch_eq_ok_iff.mpr hat] at h
  cases h

/-- A failed fetch takes the first fault (R68 to R70, R112). -/
theorem State.raiseFetch_status_firstFault {e : DecodeError} (h : s.fetch = .error e) :
    ∃ r, firstFault s = some r ∧ (s.raiseFetch e).status = .faulted r := by
  rcases State.fetch_error_cases h with ⟨hout, rfl⟩ | ⟨hpc, hunknown, rfl⟩ | ⟨k, hk1, -, hk, hknown, rfl⟩
  · exact ⟨_, firstFault_of_pc_out hout, rfl⟩
  · exact ⟨_, firstFault_of_unknownOpcode hpc hunknown, rfl⟩
  · obtain ⟨i, hi⟩ := exists_opcodeOf_eq hknown
    have hcount := State.le_of_fetch_missingOperand hk hknown h
    rw [← hi, opcodeOf_toNat_div_64] at hcount
    have hinfo : s.pc + BitVec.ofNat 9 k = 256 := by bv_omega
    refine ⟨_, firstFault_of_operandsPastMemory (by omega) hi.symm (by omega), ?_⟩
    rw [State.raiseFetch, State.raise_status, hinfo, hi]

/-- Without a register operand above 7 and without a return address past memory, an instruction takes no fault. -/
theorem Effect.status_ne_faulted (h : Effect s i t) (hrun : s.status = .running)
    (hregs : i.regOperands.find? (fun b => decide (7 < b.toNat)) = none)
    (hcall : ¬ (opcodeOf i = 0x50 ∧ 255 < s.pc.toNat + 2)) (r : FaultRecord) : t.status ≠ .faulted r := by
  rcases h.status_cases with ⟨-, rfl⟩ | ⟨b, hb, -⟩ | ⟨c, rfl, hret, -⟩ | ⟨-, hkept⟩
  · simp
  · rw [hregs] at hb; cases hb
  · exact absurd ⟨rfl, hret⟩ hcall
  · simp [hkept, hrun]

theorem opcodeOf_eq_call_iff : opcodeOf i = 0x50 ↔ ∃ r, i = .call r := by
  cases i <;> simp [opcodeOf]

/-- R94: CALL of a register, with its return address at 256, takes the memory fault. -/
theorem exec_returnAddressFault (hop : opcodeOf i = 0x50)
    (hregs : i.regOperands.find? (fun b => decide (7 < b.toNat)) = none) (hpc : s.pc.toNat + 2 = 256) :
    exec i s = .next (s.raise .outOfBoundsMemory (some (opcodeOf i)) 256) := by
  obtain ⟨b, rfl⟩ := opcodeOf_eq_call_iff.mp hop
  rcases Reg.byte_cases b with ⟨c, rfl⟩ | ⟨hhigh, -⟩
  · rw [(Effect.callFault c (by omega)).exec_eq, hpc]
    rfl
  · simp [Instr.regOperands, hhigh] at hregs

/-- An instruction in memory takes the first fault, if there is one (R71, R94, R112). -/
theorem exec_faulted_iff_firstFault (hat : s.HoldsAtPc (encode i)) (hrun : s.status = .running)
    (h : exec i s = .next t) (r : FaultRecord) : t.status = .faulted r ↔ firstFault s = some r := by
  rw [firstFault_of_holdsAtPc hat]
  cases hregs : i.regOperands.find? fun b => decide (7 < b.toNat) with
  | some b =>
    rw [exec_registerFault hregs] at h; cases h
    simp
  | none =>
    by_cases hcall : opcodeOf i = 0x50 ∧ 255 < s.pc.toNat + 2
    · obtain ⟨c, rfl⟩ := opcodeOf_eq_call_iff.mp hcall.1
      have hpc : s.pc.toNat + 1 ≤ 255 := hat.pc_add_length_le
      rw [exec_returnAddressFault hcall.1 hregs (by omega)] at h; cases h
      simp [hcall]
    · rw [if_neg hcall]
      simpa using (exec_effect h).status_ne_faulted hrun hregs hcall r

/-- R112: a step ends FAULTED exactly with the first fault in the order. -/
theorem step_faulted_iff_firstFault (h : step s = .next t) (r : FaultRecord) :
    t.status = .faulted r ↔ firstFault s = some r := by
  obtain ⟨hrun, ⟨e, he, rfl⟩ | ⟨i, hi, hexec⟩⟩ := step_next h
  · obtain ⟨r', hfirst, hstatus⟩ := State.raiseFetch_status_firstFault he
    rw [hfirst, hstatus, Status.faulted.injEq, Option.some.injEq]
  · exact exec_faulted_iff_firstFault (State.holdsAtPc_of_fetch_ok hi) hrun hexec r

/-- Settles O14: a RUNNING machine has a step, its status is that of the first fault, and it changes nothing else. -/
theorem firstFaultInPriorityOrder : Obligations.FirstFaultInPriorityOrder := by
  intro s hrun
  obtain ⟨t, hstep⟩ := exists_step_iff_running.mpr hrun
  refine ⟨t, hstep, ?_⟩
  cases hfirst : firstFault s with
  | some r => exact (step_fault_eq hstep ((step_faulted_iff_firstFault hstep r).mpr hfirst)).1
  | none =>
    intro r hr
    rw [(step_faulted_iff_firstFault hstep r).mp hr] at hfirst
    cases hfirst

end Sys2Proof.Machine

/-! ## Proofs: reset, the host's refusals and the reset input -/

namespace Sys2Proof.Machine

variable {values : List Nat} {s : State}

/-- R29, R31: reset releases to HALTED or RUNNING. -/
theorem hostReset_status_ne_faulted (progEmpty : Bool) (s : State) (r : FaultRecord) :
    (hostReset progEmpty s).status ≠ .faulted r := by
  cases progEmpty <;> exact nofun

/-- Reset restores all that the invariant speaks of but memory, which it keeps (R123, R124). -/
theorem hostReset_inv (progEmpty : Bool) (hm : s.mem.wf) : (hostReset progEmpty s).Inv := by
  have hpc : Config.resetPc.toNat ≤ 256 := by decide
  exact ⟨hpc, hm, .inl rfl, fun r hr => absurd hr (hostReset_status_ne_faulted progEmpty s r)⟩

/-- Log 4: the reset state has no image, and another reset without one leaves it as it is. -/
theorem hostReset_true_reset : hostReset true State.reset = State.reset := rfl

/-- Settles O41: the reset state is its own reset over the empty memory, which the empty image leaves empty. -/
theorem resetMeetsInvariant : Obligations.ResetMeetsInvariant :=
  ⟨hostReset_true_reset ▸ hostReset_inv true State.reset_mem_wf, rfl, boot_eq_some.mpr ⟨by simp, rfl⟩⟩

/-- Settles O42: a boot is a reset over the loaded memory, and loading keeps the canonical form. -/
theorem bootMeetsInvariant : Obligations.BootMeetsInvariant := by
  intro values s t hm hboot
  obtain ⟨-, rfl⟩ := boot_eq_some.mp hboot
  exact hostReset_inv _ (Memory.place_wf _ hm 0)

/-! ### What the host refuses (R129, R131) -/

/-- The load answers no state exactly for the images that do not fit. -/
theorem loadImage_eq_none : loadImage values s = none ↔ 256 < values.length ∨ ∃ v ∈ values, 255 < v := by
  have hfits : loadImage values s ≠ none ↔ values.length ≤ 256 ∧ ∀ v ∈ values, v ≤ 255 := by
    simp only [Option.ne_none_iff_exists', loadImage_eq_some, exists_and_left, exists_eq, and_true]
  rw [← not_iff_not, ← ne_eq, hfits]
  push Not
  rfl

/-- The boot starts exactly what the load accepts. -/
theorem boot_eq_none : boot values s = none ↔ 256 < values.length ∨ ∃ v ∈ values, 255 < v := by
  rw [boot, Option.map_eq_none_iff, loadImage_eq_none]

/-- Settles O52: an accepted image is read back from `mem[0]` on; an unfit one is neither loaded nor booted. -/
theorem imageBytesLoadedInOrder : Obligations.ImageBytesLoadedInOrder := by
  refine ⟨fun values s hlen hbyte => ?_, fun values s hunfit => ?_⟩
  · refine ⟨_, loadImage_eq_some.mpr ⟨⟨hlen, hbyte⟩, rfl⟩, fun k hk => ?_⟩
    rw [Memory.get_place_image s.mem hlen hbyte k, dif_pos hk]
  · exact ⟨loadImage_eq_none.mpr hunfit, boot_eq_none.mpr hunfit⟩

/-- Settles O56: the boot refuses what the load refuses, and what it answers is a reset state. -/
theorem bootRefusesExactlyUnfitImages : Obligations.BootRefusesExactlyUnfitImages := by
  refine ⟨fun values s => boot_eq_none, fun values s t hboot => ?_⟩
  obtain ⟨-, rfl⟩ := boot_eq_some.mp hboot
  exact hostReset_status_ne_faulted _ _

/-! ### The reset input (R125, R132) -/

/-- With `rst = 1` the machine is reset, over memory with the presented byte written. -/
theorem hostTick_of_rst {inp : HostInputs} (h : inp.rst = true) (s : State) :
    hostTick inp s = .next (hostReset inp.progEmpty (if inp.ldWe then hostWrite inp.ldAddr inp.ldData s else s)) :=
  if_pos h

/-- With `rst = 0` the machine steps, whatever the load port presents. -/
theorem hostTick_of_not_rst {inp : HostInputs} (h : inp.rst = false) (s : State) : hostTick inp s = step s := by
  simp [hostTick, h]

/-- R132: a load write sets the byte at its address and no other. -/
theorem hostWrite_get (a v : Byte) (s : State) (x : Nat) :
    (hostWrite a v s).mem.get x = if x = a.toNat then v else s.mem.get x := by
  rw [hostWrite, State.store_mem, Memory.get_set]

/-- Settles O54: a move with `rst = 1` is a reset, over the memory with or without the load write; one with `rst = 0` a step. -/
theorem resetInputAbandonsStepAndKeepsMemory : Obligations.ResetInputAbandonsStepAndKeepsMemory := by
  refine ⟨fun inp s hrst => ?_, fun inp s hrst => hostTick_of_not_rst hrst s⟩
  refine ⟨_, hostTick_of_rst hrst s, rfl, rfl, rfl, rfl, fun x => ?_⟩
  show (if inp.ldWe then hostWrite inp.ldAddr inp.ldData s else s).mem.get x = _
  cases hwe : inp.ldWe with
  | true => simp [hostWrite_get]
  | false => simp

end Sys2Proof.Machine
